-- ==== Sys2Proof/Word.lean ====
section
/-! DEFINITION. The two word types of the machine (spec/00_scope.md R4, R6). -/

namespace Sys2Proof

/-- A byte: a register, a memory cell, an operand (R4 `CELL_BITS`, `REG_BITS`). -/
abbrev Byte := BitVec 8

/-- The program counter: 9 bits, so that it can hold 256, the one out-of-range value
(R4 `PC_BITS`, R12; the spec's decision D1: log entry 5). DESIGN CHOICE, safe. -/
abbrev PcWord := BitVec 9

/-- A valid register index, 0 to 7 (R4 `NREGS`, R10). -/
abbrev Reg := Fin 8

end Sys2Proof
end

