-- ==== Sys2Proof/Config.lean ====
section
/-! DEFINITION. The parameters of the block (spec/00_scope.md R4). `STEP_LIMIT` is no constant: it
is an argument of `Sys2Proof.Machine.execute` (D17), outside the step. -/

namespace Sys2Proof.Config

/-- `MEM_CELLS` (R4): addresses 0 to 255. -/
def memCells : Nat := 256

/-- The reset contents of every memory cell (R14 "zero-initialized", R21), which is also what an
address that the memory list does not name reads as (log entry 27). -/
def memReset : Byte := 0

/-- `NREGS` (R4). -/
def nregs : Nat := 8

/-- `SP_INDEX` (R4, R11): the designation is wiring and never changes. -/
def spIndex : Reg := 7

/-- `SP_RESET` (R4, R21). -/
def spReset : Byte := 0xF4

/-- `PC_RESET` (R4, R21). -/
def pcReset : PcWord := 0

/-- `GPR_RESET` (R4, R21): the source states none; the spec takes 0 (D6: log entry 10).
DESIGN CHOICE, unsafe. -/
def gprReset : Byte := 0

/-- `FLAGS_RESET` (R4, R21), for each of G, L, E: the source states none; the spec takes 0
(D7: log entry 11). DESIGN CHOICE, unsafe. -/
def flagReset : Bool := false

/-- `LOAD_BASE` (R4, R151): where the program image starts. -/
def loadBase : Nat := 0

/-- `FAULT_EXIT_STATUS` (R4, R154): the source says only "non-zero"; the spec takes 1
(D10: log entry 14). DESIGN CHOICE, unsafe for a claim about the exact value. -/
def faultExitStatus : Nat := 1

end Sys2Proof.Config
end

