-- ==== Sys2Proof/Syntax.lean ====
section
/-! DEFINITION. The instructions (spec/30_encoding.md R50, R54; one constructor for each row of
spec/opcode_table.json), and the shapes of the dispatch table's rows (R73). -/

namespace Sys2Proof

/-- An instruction with its operand bytes as they stand in memory. A register operand is the whole
byte: a byte above 7 is still that instruction and faults when executed (R52), so it is kept here
and checked by the meaning; `Instr.wellFormed` says which operands are valid. -/
inductive Instr where
  /-- HLT, 0x01 (R76). -/
  | hlt
  /-- LDI reg, immediate, 0x82 (R90). -/
  | ldi (reg imm : Byte)
  /-- PRN reg, 0x47 (R91). -/
  | prn (reg : Byte)
  /-- MUL regA, regB, 0xA2 (R104). -/
  | mul (regA regB : Byte)
  /-- PUSH reg, 0x45 (R121). -/
  | push (reg : Byte)
  /-- POP reg, 0x46 (R122). -/
  | pop (reg : Byte)
  /-- CALL reg, 0x50 (R130). -/
  | call (reg : Byte)
  /-- RET, 0x11 (R131). -/
  | ret
  /-- CMP regA, regB, 0xA7 (R105). -/
  | cmp (regA regB : Byte)
  /-- JMP reg, 0x54 (R133). -/
  | jmp (reg : Byte)
  /-- JEQ reg, 0x55 (R134). -/
  | jeq (reg : Byte)
  /-- JNE reg, 0x56 (R135). -/
  | jne (reg : Byte)
  deriving DecidableEq, Repr

/-- The twelve operations that have a dispatch entry (R54, R73). -/
inductive Opcode where
  | hlt | ldi | prn | mul | push | pop | call | ret | cmp | jmp | jeq | jne
  deriving DecidableEq, Repr

/-- The four instruction formats (R50). -/
inductive Format where
  /-- `OP`: the opcode byte alone. -/
  | op
  /-- `OP_R`: opcode, register. -/
  | opR
  /-- `OP_R_I`: opcode, register, immediate. -/
  | opRI
  /-- `OP_R_R`: opcode, register, register. -/
  | opRR
  deriving DecidableEq, Repr

/-- One row of the dispatch table (R73): the opcode byte, the handler it selects, the format. -/
structure DispatchRow where
  byte : Byte
  op : Opcode
  format : Format
  deriving DecidableEq, Repr

end Sys2Proof
end

