-- ==== Sys2Proof/Machine/State.lean ====
section
/-! DEFINITION. The state of the machine (spec/10_state.md R10 to R18), its reset value (R21), and
the two reason types of the step. -/

namespace Sys2Proof.Machine

/-- The run status (R15). R6 and R15 name three values; R21 and R200 give the reset value "not
running", which is none of them, so a fourth value stands for it (log entry 1). DEDUCED, safe. -/
inductive Status where
  /-- After reset, before the run starts (R21 "not yet `RUNNING`"). -/
  | ready
  /-- Steps are taken. -/
  | running
  /-- HLT was executed (R76). -/
  | halted
  /-- A fatal error was raised (R175). -/
  | faulted
  deriving DecidableEq, Repr

/-- The four error kinds (R170). -/
inductive ErrorKind where
  | unknownOpcode
  | outOfBounds
  | unsupportedOperation
  /-- The loader's, before the run (R174): the block never records it. -/
  | loadError
  deriving DecidableEq, Repr

/-- The ALU's operation tag (R100). The hardware's handlers pass only the first two; `other` stands
for R100's "any other tag", so that R103's fault can be written (log entry 15).
DESIGN CHOICE, safe. -/
inductive AluTag where
  | mul
  | cmp
  | other (code : Nat)
  deriving DecidableEq, Repr

/-- Which register operand of the instruction a fault is about (R175). -/
inductive OperandSlot where
  | first
  | second
  deriving DecidableEq, Repr

/-- The kind of a fault with the context it records (R16, R175; the fields are the spec's decision
D20: log entry 24). -/
inductive FaultInfo where
  /-- The offending byte and its address (R171). -/
  | unknownOpcode (byte : Byte) (address : Nat)
  /-- `OutOfBounds`, space memory: the address that was accessed (R32). -/
  | memoryOutOfBounds (index : Nat)
  /-- `OutOfBounds`, space register: the operand byte and which operand it is (R52). -/
  | registerOutOfBounds (index : Byte) (operand : OperandSlot)
  /-- The tag (R103). -/
  | unsupportedOperation (tag : AluTag)
  deriving DecidableEq, Repr

/-- The fault record (R16): what was raised, and `pc` at the start of the faulting step. -/
structure FaultRecord where
  info : FaultInfo
  pc : PcWord
  deriving DecidableEq, Repr

/-- The condition flags Greater, Less, Equal: three bits of their own (R13, D16: log entry 20). -/
structure Flags where
  greater : Bool
  less : Bool
  equal : Bool
  deriving DecidableEq, Repr

/-- Memory as a list of (address, byte), in the canonical form `Memory.wf` of Machine/Ops.lean:
addresses rising, none above 255, no entry equal to what an unlisted address reads as. -/
abbrev Memory := List Host.Cell

/-- The whole state of the block (R10 to R18); nothing else persists between steps (R17, R20). -/
structure State where
  /-- `x[0]` to `x[7]` (R10); `x[7]` is SP (R11). -/
  regs : Vector Byte 8
  /-- The program counter (R12). -/
  pc : PcWord
  /-- G, L, E (R13). -/
  flags : Flags
  /-- `mem` (R14). -/
  mem : Memory
  /-- `status` (R15). -/
  status : Status
  /-- The fault record; empty unless `status` is `faulted` (R16). -/
  fault : Option FaultRecord
  /-- The output trace, oldest first (R18). -/
  out : List Byte
  deriving DecidableEq, Repr

/-- Why no step is taken. An error of a program is none of these: it is a next state with the fault
record written (R175; log entry 4). -/
inductive Fault where
  /-- Raised by `step` when HLT has ended the run: "no step is taken" (R15, R77). Safe: there is no
  next state to prove anything about. -/
  | halted
  /-- Raised by `step` when a fault has ended the run (R15, R178). Safe, for the same reason. -/
  | faulted
  deriving DecidableEq, Repr

/-- Why an instruction has no meaning in the model. -/
inductive Refusal where
  /-- Raised by an arm of `exec` that has no meaning yet. No arm raises it: every row of the opcode
  table is modelled. Safe. -/
  | notModelled (mnemonic : String)
  deriving DecidableEq, Repr

/-- The machine right after reset, before the loader writes the program image (R21, R200). -/
def State.reset : State where
  regs := #v[Config.gprReset, Config.gprReset, Config.gprReset, Config.gprReset,
    Config.gprReset, Config.gprReset, Config.gprReset, Config.spReset]
  pc := Config.pcReset
  flags := ⟨Config.flagReset, Config.flagReset, Config.flagReset⟩
  mem := []
  status := .ready
  fault := none
  out := []

end Sys2Proof.Machine
end

