-- ==== Sys2Proof/Machine/Ops.lean ====
section
/-! DEFINITION. The named operations over registers, memory, the program counter and the output
(spec/00_scope.md R7, spec/50_interfaces.md R156), and raising a fault (spec/60_exceptions.md R175).
There is no return from a fault (R178), so nothing stands beside `State.raise`. -/

namespace Sys2Proof.Machine

/-! ### Memory (R14, R30) -/

/-- The byte at an address; an unlisted address holds its reset contents (R14). -/
def Memory.read (m : Memory) (a : Nat) : Byte := (m.lookup a).getD Config.memReset

/-- Put an entry in front of the first entry with a higher address. -/
def Memory.insert (a : Nat) (v : Byte) : Memory → Memory
  | [] => [(a, v)]
  | c :: m => if a < c.1 then (a, v) :: c :: m else c :: Memory.insert a v m

/-- Write one byte: the old entry goes, and a new one is listed unless the value is what an
unlisted address reads as. -/
def Memory.write (m : Memory) (a : Nat) (v : Byte) : Memory :=
  if v = Config.memReset then m.filter (fun c => c.1 != a)
  else Memory.insert a v (m.filter (fun c => c.1 != a))

/-- The canonical form: addresses rise strictly, all exist, no entry is redundant. -/
abbrev Memory.wf (m : Memory) : Prop :=
  m.Pairwise (fun c d => c.1 < d.1) ∧ ∀ c ∈ m, c.1 < Config.memCells ∧ c.2 ≠ Config.memReset

/-- Replace the memory. -/
def State.setMem (s : State) (m : Memory) : State := { s with mem := m }

/-- `MemRead(addr, 1)` of R7. -/
def memRead (addr : Nat) (s : State) : Except FaultInfo Byte :=
  if addr < Config.memCells then .ok (s.mem.read addr) else .error (.memoryOutOfBounds addr)

/-- `MemWrite(addr, 1, v)` of R7. -/
def memWrite (addr : Nat) (v : Byte) (s : State) : Except FaultInfo State :=
  if addr < Config.memCells then .ok (s.setMem (s.mem.write addr v))
  else .error (.memoryOutOfBounds addr)

/-! ### Registers (R10, R11) -/

/-- `x[r]`. -/
def State.reg (s : State) (r : Reg) : Byte := s.regs[r]

/-- `x[r] <- v`. -/
def State.setReg (s : State) (r : Reg) (v : Byte) : State := { s with regs := s.regs.set r v }

/-- SP, which is always `x[7]` (R11). -/
def State.sp (s : State) : Byte := s.reg Config.spIndex

/-- `x[7] <- v`. -/
def State.setSp (s : State) (v : Byte) : State := s.setReg Config.spIndex v

/-! ### The program counter, the flags, the output and the end of a run -/

/-- `zext_9(v)` of R6. -/
def zext9 (v : Byte) : PcWord := v.setWidth 9

/-- `pc <- target`. -/
def State.setPc (s : State) (target : PcWord) : State := { s with pc := target }

/-- `pc <- pc + length` (R75); 9 bits hold the sum wherever an instruction executes (R12). -/
def State.advance (s : State) (length : Nat) : State := s.setPc (s.pc + BitVec.ofNat 9 length)

/-- `pc <- zext_9(v)`: a transfer of control to a byte address (R75, R137). -/
def State.jumpTo (s : State) (v : Byte) : State := s.setPc (zext9 v)

/-- Write all three flags (R13). -/
def State.setFlags (s : State) (f : Flags) : State := { s with flags := f }

/-- `Emit(v)` of R7: `out <- out ++ [v]` (R18). -/
def State.emit (s : State) (v : Byte) : State := { s with out := s.out ++ [v] }

/-- `status <- RUNNING` (R70): the bare write of the status. The host's run start, which may make it
only once after reset, is `startRun`. -/
def State.setRunning (s : State) : State := { s with status := .running }

/-- `status <- HALTED` (R76). -/
def State.halt (s : State) : State := { s with status := .halted }

/-! ### Faults (R7 `raise`, R175, R176) -/

/-- Fault entry (R175): the status and the record are written, nothing else. It is applied to the
state at the START of the step, so every write the step has made is discarded (R176). -/
def State.raise (s : State) (info : FaultInfo) : State :=
  { s with status := .faulted, fault := some ⟨info, s.pc⟩ }

/-- End a step that began in `s`: with what its handler made of it, or with fault entry (R7). -/
def commit (s : State) (result : Except FaultInfo State) : Host.Outcome State Fault Refusal :=
  match result with
  | .ok t => .next t
  | .error info => .next (s.raise info)

/-! ### The stack (R120) -/

/-- The first line of `Push`: `x[7] <- (x[7] - 1) mod 256`. -/
def State.decSp (s : State) : State := s.setSp (s.sp - 1)

/-- The last line of `Pop`: `x[7] <- (x[7] + 1) mod 256`. -/
def State.incSp (s : State) : State := s.setSp (s.sp + 1)

/-- `Push(v)` of R120. -/
def push (v : Byte) (s : State) : Except FaultInfo State :=
  memWrite s.decSp.sp.toNat v s.decSp

/-- `Pop()` of R120: the byte, and the state with SP raised. -/
def pop (s : State) : Except FaultInfo (Byte × State) := do
  let v ← memRead s.sp.toNat s
  return (v, s.incSp)

end Sys2Proof.Machine
end

