-- ==== Sys2Proof/Machine/Boundary.lean ====
section
/-! DEFINITION. The block's interfaces to its host (spec/50_interfaces.md R150 to R155, R160):
reset, program load, run start, the numeric output's rendering, the status outputs. A move that the
host may not make in a state has no result, `none` (log entry 35). -/

namespace Sys2Proof.Machine

/-- Reset (R200): one kind of reset; it zeroes memory again (R14). The host makes it before a run or
after one, and not during a run (R150, R160, R200), so a running machine has no reset. It is the one
move that leaves `halted` and `faulted` (R15, the spec's decision D19: log entry 23). -/
def hostReset (s : State) : Option State :=
  match s.status with
  | .ready => some State.reset
  | .running => none
  | .halted => some State.reset
  | .faulted => some State.reset

/-- Bytes into consecutive addresses, each through the memory write (R151). -/
def loadFrom (a : Nat) : List Byte → State → Except FaultInfo State
  | [], s => .ok s
  | v :: rest, s => do
    let t ← memWrite a v s
    loadFrom (a + 1) rest t

/-- Program load (R151): byte `k` of the image goes to `mem[k]`. The host loads only before the run
(R160); an image of more than 256 bytes is refused and no run starts (the spec's decision D15: log
entry 19). A second load before the run start is accepted, and it overlays the first image without
zeroing what that left beyond its own length: the spec names one load and is silent on a repeat (log
entry 33). DESIGN CHOICE. -/
def loadImage (image : List Byte) (s : State) : Option State :=
  if s.status = .ready ∧ image.length ≤ Config.memCells then
    match loadFrom Config.loadBase image s with
    | .ok t => some t
    | .error _ => none
  else none

/-- Run start (R70, R152): `status <- RUNNING`, once, after reset and load. A machine that is running
or whose run has ended cannot be started: there is no resume (R152, R160), and HALTED and FAULTED
are left by reset only (R15, R77, R178). Nothing records whether an image was loaded, so a start
with none is a start with the empty image (log entry 34). DESIGN CHOICE. -/
def startRun (s : State) : Option State :=
  match s.status with
  | .ready => some s.setRunning
  | .running => none
  | .halted => none
  | .faulted => none

/-- The host's moves that act on the block (R150, R160). Reading its outputs changes nothing. -/
inductive HostMove where
  | reset
  | load (image : List Byte)
  | start
  deriving DecidableEq, Repr

/-- A host's move, where the host may make it (R160): before the run all three, during the run none,
after the run the reset only. -/
def hostMove (m : HostMove) (s : State) : Option State :=
  match m with
  | .reset => hostReset s
  | .load image => loadImage image s
  | .start => startRun s

/-- The running flag (R15). -/
def isRunning (s : State) : Bool := s.status == .running

/-- The exit status (R154): 0 after HLT, non-zero after any fault, none before the run ends. -/
def exitStatus (s : State) : Option Nat :=
  match s.status with
  | .ready => none
  | .running => none
  | .halted => some 0
  | .faulted => some Config.faultExitStatus

/-- The kind a fault's context belongs to (R170, R175). -/
def FaultInfo.kind : FaultInfo → ErrorKind
  | .unknownOpcode _ _ => .unknownOpcode
  | .memoryOutOfBounds _ => .outOfBounds
  | .registerOutOfBounds _ _ => .outOfBounds
  | .unsupportedOperation _ => .unsupportedOperation

/-- The fault report (R155): the record, which has a meaning only when the run has faulted (R16). -/
def faultReport (s : State) : Option FaultRecord :=
  if s.status = .faulted then s.fault else none

/-- The decimal text of one printed value and its line feed (R153, the spec's decision D14: log
entry 18). -/
def renderValue (v : Byte) : List Char := Nat.toDigits 10 v.toNat ++ ['\n']

/-- The host's text for the output trace, one value a line (R153). -/
def renderOutput (s : State) : List Char := s.out.flatMap renderValue

end Sys2Proof.Machine
end

