-- ==== Sys2Proof/Machine/Flags.lean ====
section
/-! DEFINITION. The one flag computation of the machine: compare (spec/42_alu_mul_cmp.md R102). No
other instruction writes a flag (R13, R106). -/

namespace Sys2Proof.Machine

/-- All three flags from an unsigned comparison (R102; unsigned is the spec's decision D12: log
entry 16). -/
def compareFlags (a b : Byte) : Flags where
  greater := decide (a.toNat > b.toNat)
  less := decide (a.toNat < b.toNat)
  equal := decide (a.toNat = b.toNat)

/-- How many of the three flags are set. -/
def Flags.count (f : Flags) : Nat := f.greater.toNat + f.less.toNat + f.equal.toNat

end Sys2Proof.Machine
end

