-- ==== Sys2Proof/Machine/Operands.lean ====
section
/-! DEFINITION. The operand forms (spec/30_encoding.md R52, R53). There are two: a register operand
and the immediate of LDI. There is no memory operand and no addressing mode (R137). -/

namespace Sys2Proof.Machine

/-- `RegIndex(b)` of R7: the whole operand byte is the index, and a byte above 7 is out of bounds
(R52). The slot is only for the fault record. -/
def regIndex (slot : OperandSlot) (b : Byte) : Except FaultInfo Reg :=
  if h : b.toNat < Config.nregs then .ok ⟨b.toNat, h⟩ else .error (.registerOutOfBounds b slot)

/-- The operands of format `OP_R_R`: `regA` is checked before `regB` (R52; the order is the spec's
decision D4: log entry 8). -/
def regIndexPair (a b : Byte) : Except FaultInfo (Reg × Reg) := do
  let ra ← regIndex .first a
  let rb ← regIndex .second b
  return (ra, rb)

/-- The immediate is the whole byte as it stands (R53). -/
def immediate (b : Byte) : Byte := b

end Sys2Proof.Machine
end

