-- ==== Sys2Proof/Machine/Alu.lean ====
section
/-! DEFINITION. The ALU, MUL and CMP (spec/42_alu_mul_cmp.md R100 to R105). -/

namespace Sys2Proof.Machine

/-- ALU multiply: the exact product of the unsigned values, reduced modulo 256 (R101). -/
def mulByte (a b : Byte) : Byte := BitVec.ofNat 8 (a.toNat * b.toNat)

/-- `ALU(tag, ra, rb)` of R100. -/
def alu (tag : AluTag) (ra rb : Reg) (s : State) : Except FaultInfo State :=
  match tag with
  | .mul => .ok (s.setReg ra (mulByte (s.reg ra) (s.reg rb)))
  | .cmp => .ok (s.setFlags (compareFlags (s.reg ra) (s.reg rb)))
  | .other code => .error (.unsupportedOperation (.other code))

/-- MUL (R104). -/
def execMul (regA regB : Byte) (s : State) : Host.Outcome State Fault Refusal :=
  commit s do
    let (ra, rb) ← regIndexPair regA regB
    let t ← alu .mul ra rb s
    return t.advance 3

/-- CMP (R105). -/
def execCmp (regA regB : Byte) (s : State) : Host.Outcome State Fault Refusal :=
  commit s do
    let (ra, rb) ← regIndexPair regA regB
    let t ← alu .cmp ra rb s
    return t.advance 3

end Sys2Proof.Machine
end

