-- ==== Sys2Proof/Machine/Control.lean ====
section
/-! DEFINITION. CALL, RET, JMP, JEQ, JNE (spec/44_control_flow.md R130 to R135). -/

namespace Sys2Proof.Machine

/-- The return address `pc + 2` of CALL as the byte that is pushed (R130). It fits a byte wherever
an instruction executes, `pc <= 253` (R72); the high bit is dropped in states that no step executes
in (log entry 28). -/
def returnAddress (s : State) : Byte := (s.pc + 2).setWidth 8

/-- CALL: push the return address, then read the target (R130; the order matters for R7: D9, log
entry 13). -/
def execCall (reg : Byte) (s : State) : Host.Outcome State Fault Refusal :=
  commit s do
    let r ← regIndex .first reg
    let t ← push (returnAddress s) s
    return t.jumpTo (t.reg r)

/-- RET: pop into pc (R131). -/
def execRet (s : State) : Host.Outcome State Fault Refusal :=
  commit s do
    let (v, t) ← pop s
    return t.jumpTo v

/-- JMP (R133). Jumps change pc and nothing else (R138). -/
def execJmp (reg : Byte) (s : State) : Host.Outcome State Fault Refusal :=
  commit s do
    let r ← regIndex .first reg
    return s.jumpTo (s.reg r)

/-- JEQ (R134): the operand is checked on both paths (the spec's decision D5: log entry 9). -/
def execJeq (reg : Byte) (s : State) : Host.Outcome State Fault Refusal :=
  commit s do
    let r ← regIndex .first reg
    return if s.flags.equal then s.jumpTo (s.reg r) else s.advance 2

/-- JNE (R135): the operand is checked on both paths (D5: log entry 9). -/
def execJne (reg : Byte) (s : State) : Host.Outcome State Fault Refusal :=
  commit s do
    let r ← regIndex .first reg
    return if s.flags.equal then s.advance 2 else s.jumpTo (s.reg r)

end Sys2Proof.Machine
end

