-- ==== Sys2Proof/Machine/Halt.lean ====
section
/-! DEFINITION. HLT (spec/40_engine_cycle.md R76). -/

namespace Sys2Proof.Machine

/-- HLT: `pc <- pc + 1`, `status <- HALTED` (R76). -/
def execHlt (s : State) : Host.Outcome State Fault Refusal :=
  commit s (.ok (s.advance 1).halt)

end Sys2Proof.Machine
end

