-- ==== Sys2Proof/Machine/LdiPrn.lean ====
section
/-! DEFINITION. LDI and PRN (spec/41_ldi_prn.md R90, R91). -/

namespace Sys2Proof.Machine

/-- LDI: `x[r] <- opb` (R90). -/
def execLdi (reg imm : Byte) (s : State) : Host.Outcome State Fault Refusal :=
  commit s do
    let r ← regIndex .first reg
    return (s.setReg r (immediate imm)).advance 3

/-- PRN: `Emit(x[r])` (R91). -/
def execPrn (reg : Byte) (s : State) : Host.Outcome State Fault Refusal :=
  commit s do
    let r ← regIndex .first reg
    return (s.emit (s.reg r)).advance 2

end Sys2Proof.Machine
end

