-- ==== Sys2Proof/Machine/Stack.lean ====
section
/-! DEFINITION. PUSH and POP (spec/43_stack_push_pop.md R121, R122). The lines of each rule run in
their order, each seeing the writes before it, also when the operand is R7 (the spec's decision D9:
log entry 13). -/

namespace Sys2Proof.Machine

/-- PUSH: SP is lowered, then `x[r]` is read and stored at the new SP (R121). -/
def execPush (reg : Byte) (s : State) : Host.Outcome State Fault Refusal :=
  commit s do
    let r ← regIndex .first reg
    let t ← push (s.decSp.reg r) s
    return t.advance 2

/-- POP: `x[r]` is written with the byte at SP, then SP, as it now is, is raised (R122). -/
def execPop (reg : Byte) (s : State) : Host.Outcome State Fault Refusal :=
  commit s do
    let r ← regIndex .first reg
    let v ← memRead s.sp.toNat s
    return ((s.setReg r v).incSp).advance 2

end Sys2Proof.Machine
end

