-- ==== Sys2Proof/WellFormed.lean ====
section
/-! DEFINITION. Which instruction terms are well formed: every register operand is 0 to 7
(spec/30_encoding.md R52). Every immediate byte is valid (R53). -/

namespace Sys2Proof

/-- A register operand byte is valid when it is 0 to 7 (R52). -/
def validRegByte (b : Byte) : Bool := b.toNat < Config.nregs

/-- Well-formed instructions: the ones that raise no `OutOfBounds(register, …)`. -/
def Instr.wellFormed : Instr → Bool
  | .hlt => true
  | .ldi r _ => validRegByte r
  | .prn r => validRegByte r
  | .mul a b => validRegByte a && validRegByte b
  | .push r => validRegByte r
  | .pop r => validRegByte r
  | .call r => validRegByte r
  | .ret => true
  | .cmp a b => validRegByte a && validRegByte b
  | .jmp r => validRegByte r
  | .jeq r => validRegByte r
  | .jne r => validRegByte r

end Sys2Proof
end

