-- ==== Sys2Proof/Decode.lean ====
section
/-! DEFINITION. The dispatch table, the decoder and the encoder (spec/30_encoding.md R50 to R56,
spec/40_engine_cycle.md R73, R74). Decoding is total and rejects by name. -/

namespace Sys2Proof

/-- Why bytes do not decode. -/
inductive DecodeError where
  /-- The opcode byte has no dispatch entry (R55). The step turns this into the fault
  `UnknownOpcode` (R171). -/
  | unknownOpcode (byte : Byte)
  /-- `decodeBytes` was given fewer bytes than the instruction has. The machine always fetches
  three bytes (R72), so no step meets this. -/
  | truncated
  deriving DecidableEq, Repr

/-- The dispatch table, in the document's order (R54, R73). It is a constant (R74). -/
def dispatchTable : List DispatchRow :=
  [ ⟨0x01, .hlt, .op⟩, ⟨0x82, .ldi, .opRI⟩, ⟨0x47, .prn, .opR⟩, ⟨0xA2, .mul, .opRR⟩,
    ⟨0x45, .push, .opR⟩, ⟨0x46, .pop, .opR⟩, ⟨0x50, .call, .opR⟩, ⟨0x11, .ret, .op⟩,
    ⟨0xA7, .cmp, .opRR⟩, ⟨0x54, .jmp, .opR⟩, ⟨0x55, .jeq, .opR⟩, ⟨0x56, .jne, .opR⟩ ]

/-- `DispatchTable(b)` of R73: the row whose opcode equals the whole byte, or absent. -/
def dispatchRow (b : Byte) : Option DispatchRow :=
  dispatchTable.find? (fun row => row.byte == b)

/-- How many operand bytes a format has (R50). -/
def Format.operandCount : Format → Nat
  | .op => 0
  | .opR => 1
  | .opRI => 2
  | .opRR => 2

/-- The instruction length is 1 plus the operand count (R50). -/
def Format.length (f : Format) : Nat := 1 + f.operandCount

/-- The instruction a handler's operation makes of the two fetched bytes. A byte that is not part
of the format is dropped (R50, R72). For two operands the first byte is `reg` or `regA`, the second
`immediate` or `regB` (R33). -/
def Opcode.build (op : Opcode) (opa opb : Byte) : Instr :=
  match op with
  | .hlt => .hlt
  | .ldi => .ldi opa opb
  | .prn => .prn opa
  | .mul => .mul opa opb
  | .push => .push opa
  | .pop => .pop opa
  | .call => .call opa
  | .ret => .ret
  | .cmp => .cmp opa opb
  | .jmp => .jmp opa
  | .jeq => .jeq opa
  | .jne => .jne opa

/-- Decode the three fetched bytes (R71): the opcode alone selects the entry (R51). -/
def decode (ir opa opb : Byte) : Except DecodeError Instr :=
  match dispatchRow ir with
  | none => .error (.unknownOpcode ir)
  | some row => .ok (row.op.build opa opb)

/-- An instruction's format (R54). -/
def Instr.format : Instr → Format
  | .hlt => .op
  | .ldi _ _ => .opRI
  | .prn _ => .opR
  | .mul _ _ => .opRR
  | .push _ => .opR
  | .pop _ => .opR
  | .call _ => .opR
  | .ret => .op
  | .cmp _ _ => .opRR
  | .jmp _ => .opR
  | .jeq _ => .opR
  | .jne _ => .opR

/-- An instruction's length in bytes, 1 to 3 (R50, R54). -/
def Instr.length (i : Instr) : Nat := i.format.length

/-- Decode the instruction at the head of a byte sequence and return the bytes after it. Bytes
beyond its declared length are left alone (R50). -/
def decodeBytes : List Byte → Except DecodeError (Instr × List Byte)
  | [] => .error .truncated
  | ir :: rest =>
    match decode ir (rest.getD 0 0) (rest.getD 1 0) with
    | .error e => .error e
    | .ok i =>
      if rest.length < i.format.operandCount then .error .truncated
      else .ok (i, rest.drop i.format.operandCount)

/-- The bytes of an instruction in memory order (R50, R54). -/
def encode : Instr → List Byte
  | .hlt => [0x01]
  | .ldi r v => [0x82, r, v]
  | .prn r => [0x47, r]
  | .mul a b => [0xA2, a, b]
  | .push r => [0x45, r]
  | .pop r => [0x46, r]
  | .call r => [0x50, r]
  | .ret => [0x11]
  | .cmp a b => [0xA7, a, b]
  | .jmp r => [0x54, r]
  | .jeq r => [0x55, r]
  | .jne r => [0x56, r]

/-- Byte `k` of the number `w` of which only the low `nbits` bits count: bits `8k+7` to `8k`. -/
def tableByte (nbits w k : Nat) : Byte :=
  BitVec.ofNat 8 ((w % 2 ^ nbits) / 2 ^ (8 * k))

/-- The instruction the decoder reads from an instruction numbered as spec/opcode_table.json
numbers it: bits 7 to 0 are the opcode byte, the byte at the lowest address (R33); the bits above
`nbits` are 0. -/
def decodeTableWord (nbits w : Nat) : Option Instr :=
  match decode (tableByte nbits w 0) (tableByte nbits w 1) (tableByte nbits w 2) with
  | .ok i => some i
  | .error _ => none

end Sys2Proof
end

