-- ==== Sys2Proof/Machine/Fetch.lean ====
section
/-! DEFINITION. Fetching and decoding the instruction at the program counter
(spec/40_engine_cycle.md R71, R72), and storing one there. -/

namespace Sys2Proof.Machine

/-- The three bytes of a fetch: `ir`, `opa`, `opb` (R71). -/
structure Fetched where
  ir : Byte
  opa : Byte
  opb : Byte
  deriving DecidableEq, Repr

/-- The three fetch reads at `pc`, `pc + 1`, `pc + 2`, in this order and whatever the opcode; the
sums are not reduced (R71, R72; that the unused bytes are bounds-checked is the spec's decision D2:
log entry 6). -/
def fetch (s : State) : Except FaultInfo Fetched := do
  let ir ← memRead s.pc.toNat s
  let opa ← memRead (s.pc.toNat + 1) s
  let opb ← memRead (s.pc.toNat + 2) s
  return ⟨ir, opa, opb⟩

/-- Fetch, then look the opcode up; a byte without an entry is `UnknownOpcode(byte, address = pc)`
(R71, R171). -/
def fetchInstr (s : State) : Except FaultInfo Instr := do
  let f ← fetch s
  match decode f.ir f.opa f.opb with
  | .ok i => return i
  | .error _ => throw (.unknownOpcode f.ir s.pc.toNat)

/-- Store a byte if the address exists (for placing an instruction from outside the machine). -/
def placeByte (m : Memory) (a : Nat) (v : Byte) : Memory :=
  if a < Config.memCells then m.write a v else m

/-- Store the three bytes that the next fetch reads. -/
def placeFetch (s : State) (ir opa opb : Byte) : State :=
  s.setMem (placeByte (placeByte (placeByte s.mem s.pc.toNat ir) (s.pc.toNat + 1) opa)
    (s.pc.toNat + 2) opb)

end Sys2Proof.Machine
end

