-- ==== Sys2Proof/Machine/Step.lean ====
section
/-! DEFINITION. One step of the machine (spec/40_engine_cycle.md R70, R71). -/

namespace Sys2Proof.Machine

/-- `Step()` of R71, taken only while the status is `running`: fetch, decode, execute. -/
def engineStep (s : State) : Host.Outcome State Fault Refusal :=
  match fetchInstr s with
  | .error info => commit s (.error info)
  | .ok i => exec i s

/-- One step. While running it is `Step()`. From `ready` it is the host's run start, which must
happen exactly once after the load (R152, R160; log entry 2): it answers what `startRun` gives. After
the run has ended no step is taken (R15, R77; log entry 3). -/
def step (s : State) : Host.Outcome State Fault Refusal :=
  match s.status with
  | .ready => .next s.setRunning
  | .running => engineStep s
  | .halted => .fault .halted
  | .faulted => .fault .faulted

/-- `s` with the instruction of table bits `w` stored at the program counter and the run started,
so that the very next step runs it (log entry 2). It is the host's device for one instruction and
none of the block's five interfaces (R150), so it looks at no status (log entry 30). -/
def State.withFetchWord (s : State) (nbits w : Nat) : State :=
  (placeFetch s (tableByte nbits w 0) (tableByte nbits w 1) (tableByte nbits w 2)).setRunning

end Sys2Proof.Machine
end

