-- ==== Sys2Proof/Machine/Run.lean ====
section
/-! DEFINITION. Runs of many steps, and an executor with the optional step limit of spec/00_scope.md R4 and
spec/40_engine_cycle.md R78 (the spec's decision D17: log entry 21). The limit is an argument of the
executor and no part of the step. -/

namespace Sys2Proof.Machine

/-- `k` steps, stopping where no step is taken (R70, R77); it is `Host.Core.run` of this machine. -/
def run : Nat → State → Host.Outcome State Fault Refusal
  | 0, s => .next s
  | k + 1, s =>
    match step s with
    | .next t => run k t
    | .fault r => .fault r
    | .refused r => .refused r

/-- How an executor stopped (R77, D17). -/
inductive RunEnd where
  | halted
  | faulted
  /-- The executor's own limit stopped it, which is neither HALTED nor FAULTED (D17). -/
  | stepLimit
  deriving DecidableEq, Repr

/-- Take at most `limit` steps of a started run, and say how it ended. It starts no run itself. -/
def executeSteps : Nat → State → RunEnd × State
  | limit, s =>
    match s.status with
    | .halted => (.halted, s)
    | .faulted => (.faulted, s)
    | .ready => (.stepLimit, s)
    | .running =>
      match limit with
      | 0 => (.stepLimit, s)
      | n + 1 =>
        match step s with
        | .next t => executeSteps n t
        | .fault _ => (.stepLimit, s)
        | .refused _ => (.stepLimit, s)

/-- A whole run: start it, where the host may (R152), then take at most `limit` steps, each one
instruction. A machine that is running or whose run has ended gets no run. -/
def execute (limit : Nat) (s : State) : Option (RunEnd × State) :=
  (startRun s).map (executeSteps limit)

end Sys2Proof.Machine
end

