-- ==== Sys2Proof/Safety.lean ====
section
/-! DEFINITION. The invariants of the machine and what a safe step is, in the terms the statements
use (spec/10_state.md R22, spec/60_exceptions.md R172, R175). -/

namespace Sys2Proof.Machine

/-- R22: `pc` is 0 to 256 and at most one flag is set; and the memory list is canonical (log
entry 27). That registers and cells are bytes is in their types. -/
abbrev State.Inv (s : State) : Prop :=
  s.mem.wf ∧ s.pc.toNat ≤ 256 ∧ s.flags.count ≤ 1

/-- What a fault record can say: the situations of R171 and R172, and no other (R173). -/
abbrev FaultRecord.Possible (f : FaultRecord) : Prop :=
  match f.info with
  | .unknownOpcode b a => dispatchRow b = none ∧ a = f.pc.toNat ∧ f.pc.toNat ≤ 253
  | .memoryOutOfBounds a => a = 256 ∧ 254 ≤ f.pc.toNat ∧ f.pc.toNat ≤ 256
  | .registerOutOfBounds b _ => 8 ≤ b.toNat ∧ f.pc.toNat ≤ 253
  | .unsupportedOperation _ => False

/-- R16, R175, R176: there is a record exactly when the run has faulted, it is a possible one, and
`pc` still is the address at which the faulting step began. -/
abbrev State.FaultSound (s : State) : Prop :=
  (s.fault.isSome ↔ s.status = .faulted) ∧ ∀ f ∈ s.fault, f.Possible ∧ f.pc = s.pc

/-- A state whose run has not ended in a fault. -/
abbrev State.Safe (s : State) : Prop := s.status ≠ .faulted

/-- The next instruction raises no fault: its three bytes exist, its opcode has an entry, its
register operands are 0 to 7 (R177). -/
abbrev State.NextIsSound (s : State) : Prop :=
  match fetchInstr s with
  | .ok i => i.wellFormed = true
  | .error _ => False

end Sys2Proof.Machine
end

