-- ==== Sys2Proof/Certificates/Slice0/Obligations.lean ====
section
/-! DEFINITION. The statements about the model, for the provers. `x[i]` of the spec is `s.regs[i]`,
`SP` is `s.regs[7]`, `mem[a]` is `s.mem.read a`. A next state written `{ s with … }` says that every
field not named is unchanged; where memory is written, the statement gives every byte of it. -/

open Sys2Proof Sys2Proof.Machine

namespace Sys2Proof.Statements

/-- The twelve opcode bytes (R54, R55). -/
def knownOpcodes : List Byte :=
  [0x01, 0x11, 0x45, 0x46, 0x47, 0x50, 0x54, 0x55, 0x56, 0x82, 0xA2, 0xA7]

/-- Opcodes whose first operand byte is a register (R54, R52). -/
def oneRegisterOpcodes : List Byte :=
  [0x45, 0x46, 0x47, 0x50, 0x54, 0x55, 0x56, 0x82, 0xA2, 0xA7]

/-- Opcodes whose second operand byte is a register too: MUL, CMP (R54, R52). -/
def twoRegisterOpcodes : List Byte := [0xA2, 0xA7]

/-- Everything but the registers, the program counter and memory is as before. -/
def sameRest (s t : State) : Prop :=
  t.flags = s.flags ∧ t.status = s.status ∧ t.fault = s.fault ∧ t.out = s.out

/-- The instruction is a taken control transfer: CALL, RET, JMP, or a JEQ or JNE whose condition
holds (R75). -/
def transfersControl (i : Instr) (s : State) : Prop :=
  i = .ret ∨ ∃ r, i = .call r ∨ i = .jmp r ∨ (i = .jeq r ∧ s.flags.equal = true) ∨
    (i = .jne r ∧ s.flags.equal = false)

/-- The registers an instruction reads, as R10's table lists them. -/
def regsRead (i : Instr) (s : State) : List Nat :=
  match i with
  | .hlt => []
  | .ldi _ _ => []
  | .prn r => [r.toNat]
  | .mul a b => [a.toNat, b.toNat]
  | .cmp a b => [a.toNat, b.toNat]
  | .push r => [7, r.toNat]
  | .pop _ => [7]
  | .call r => [7, r.toNat]
  | .ret => [7]
  | .jmp r => [r.toNat]
  | .jeq r => if s.flags.equal then [r.toNat] else []
  | .jne r => if s.flags.equal then [] else [r.toNat]

/-- The registers an instruction writes, as R10's table lists them. -/
def regsWritten (i : Instr) : List Nat :=
  match i with
  | .hlt => []
  | .ldi r _ => [r.toNat]
  | .prn _ => []
  | .mul a _ => [a.toNat]
  | .cmp _ _ => []
  | .push _ => [7]
  | .pop r => [r.toNat, 7]
  | .call _ => [7]
  | .ret => [7]
  | .jmp _ => []
  | .jeq _ => []
  | .jne _ => []

end Sys2Proof.Statements

open Sys2Proof.Statements

/-! ### The twelve instructions: encoding, effect with its frame, exceptions -/

/-- R76. HLT: the byte, the effect, exit status 0, and that HLT is the only way to end a run without
a fault. That pc is then at most 254 rests on the spec's decision D2 (nothing executes from 254 or
255: log entry 6), a choice and no rule of the source. -/
def Obligations.HltHaltsAndAdvances : Prop :=
  (∀ opa opb, decode 0x01 opa opb = .ok .hlt) ∧
  (∀ s : State, exec .hlt s = .next { s with pc := s.pc + 1, status := .halted }) ∧
  (∀ s : State, s.status = .halted → exitStatus s = some 0) ∧
  (∀ s t : State, step s = .next t → t.status = .halted →
    s.status = .running ∧ fetchInstr s = .ok .hlt ∧ t.pc.toNat = s.pc.toNat + 1 ∧
      t.pc.toNat ≤ 254)

/-- R90. LDI: every register, R7 too, and every immediate byte as it stands; from 253 it leaves pc at
256, where the next step faults. That pc reaches 256 and faults there is the spec's decision D1 (log
entry 5), that a fault changes nothing else is D3 and the record's fields are D20 (log entries 7,
24), which are choices and no rule of the source. -/
def Obligations.LdiLoadsImmediate : Prop :=
  (∀ r v, decode 0x82 r v = .ok (.ldi r v)) ∧
  (∀ (s : State) (r v : Byte) (h : r.toNat < 8),
    exec (.ldi r v) s = .next { s with regs := s.regs.set r.toNat v h, pc := s.pc + 3 }) ∧
  (∀ (s : State) (r v : Byte), 8 ≤ r.toNat →
    exec (.ldi r v) s = .next { s with
      status := .faulted, fault := some ⟨.registerOutOfBounds r .first, s.pc⟩ }) ∧
  (∀ (s : State) (r v : Byte), s.status = .running → s.pc.toNat = 253 → r.toNat < 8 →
    ∃ t u : State, exec (.ldi r v) s = .next t ∧ t.pc.toNat = 256 ∧
      step t = .next u ∧ u.status = .faulted)

/-- R91. PRN: one value is appended to the output trace. That a fault changes nothing else is the
spec's decision D3 and the record's fields are D20 (log entries 7, 24), which are choices and no rule
of the source. -/
def Obligations.PrnEmitsRegister : Prop :=
  (∀ r opb, decode 0x47 r opb = .ok (.prn r)) ∧
  (∀ (s : State) (r : Byte) (h : r.toNat < 8),
    exec (.prn r) s = .next { s with out := s.out ++ [s.regs[r.toNat]'h], pc := s.pc + 2 }) ∧
  (∀ (s : State) (r : Byte), 8 ≤ r.toNat →
    exec (.prn r) s = .next { s with
      status := .faulted, fault := some ⟨.registerOutOfBounds r .first, s.pc⟩ })

/-- R104. MUL: the product modulo 256, flags untouched, both operands read before the write. That the
first operand is judged before the second is the spec's decision D4 (log entry 8), that a fault
changes nothing else is D3 and the record's fields are D20 (log entries 7, 24), which are choices and
no rule of the source. -/
def Obligations.MulMultipliesModulo256 : Prop :=
  (∀ a b, decode 0xA2 a b = .ok (.mul a b)) ∧
  (∀ (s : State) (a b : Byte) (ha : a.toNat < 8) (hb : b.toNat < 8),
    ∃ p : Byte, p.toNat = (s.regs[a.toNat]'ha).toNat * (s.regs[b.toNat]'hb).toNat % 256 ∧
      exec (.mul a b) s = .next { s with regs := s.regs.set a.toNat p ha, pc := s.pc + 3 }) ∧
  (∀ (s : State) (a b : Byte), 8 ≤ a.toNat →
    exec (.mul a b) s = .next { s with
      status := .faulted, fault := some ⟨.registerOutOfBounds a .first, s.pc⟩ }) ∧
  (∀ (s : State) (a b : Byte), a.toNat < 8 → 8 ≤ b.toNat →
    exec (.mul a b) s = .next { s with
      status := .faulted, fault := some ⟨.registerOutOfBounds b .second, s.pc⟩ })

/-- R105. CMP: all three flags from the unsigned comparison, exactly one of them set; they stay as
CMP left them through every other instruction. The unsigned reading is the spec's decision D12 (log
entry 16), the order of the operand checks D4 (log entry 8), that a fault changes nothing else D3 and
the record's fields D20 (log entries 7, 24), which are choices and no rule of the source. -/
def Obligations.CmpSetsAllThreeFlags : Prop :=
  (∀ a b, decode 0xA7 a b = .ok (.cmp a b)) ∧
  (∀ (s : State) (a b : Byte) (ha : a.toNat < 8) (hb : b.toNat < 8),
    ∃ f : Flags,
      (f.greater = true ↔ (s.regs[a.toNat]'ha).toNat > (s.regs[b.toNat]'hb).toNat) ∧
      (f.less = true ↔ (s.regs[a.toNat]'ha).toNat < (s.regs[b.toNat]'hb).toNat) ∧
      (f.equal = true ↔ (s.regs[a.toNat]'ha).toNat = (s.regs[b.toNat]'hb).toNat) ∧
      f.count = 1 ∧
      exec (.cmp a b) s = .next { s with flags := f, pc := s.pc + 3 }) ∧
  (∀ (s : State) (a b : Byte), 8 ≤ a.toNat →
    exec (.cmp a b) s = .next { s with
      status := .faulted, fault := some ⟨.registerOutOfBounds a .first, s.pc⟩ }) ∧
  (∀ (s : State) (a b : Byte), a.toNat < 8 → 8 ≤ b.toNat →
    exec (.cmp a b) s = .next { s with
      status := .faulted, fault := some ⟨.registerOutOfBounds b .second, s.pc⟩ }) ∧
  (∀ (i : Instr) (s t : State), exec i s = .next t → (∀ a b, i ≠ .cmp a b) → t.flags = s.flags)

/-- R121 with the spec's decisions D8 (SP wraps: log entry 12), D9 (PUSH R7 stores the lowered SP:
log entry 13), D3 (a fault changes nothing else: log entry 7) and D20 (the record's fields: log entry
24), which are choices and no rule of the source. -/
def Obligations.PushStoresBelowStackPointer : Prop :=
  (∀ r opb, decode 0x45 r opb = .ok (.push r)) ∧
  (∀ (s : State) (r : Byte) (h : r.toNat < 8),
    ∃ t : State, exec (.push r) s = .next t ∧
      t.regs = s.regs.set 7 (s.regs[7] - 1) ∧
      (∀ a : Nat, t.mem.read a =
        if a = (s.regs[7] - 1).toNat then
          (if r.toNat = 7 then s.regs[7] - 1 else s.regs[r.toNat]'h)
        else s.mem.read a) ∧
      t.pc = s.pc + 2 ∧ sameRest s t) ∧
  (∀ (s : State) (r : Byte), 8 ≤ r.toNat →
    exec (.push r) s = .next { s with
      status := .faulted, fault := some ⟨.registerOutOfBounds r .first, s.pc⟩ })

/-- R122 with the spec's decisions D8 (log entry 12), D9 (POP R7 raises the loaded value: log entry
13), D3 (a fault changes nothing else: log entry 7) and D20 (the record's fields: log entry 24), which
are choices and no rule of the source. -/
def Obligations.PopLoadsFromStackPointer : Prop :=
  (∀ r opb, decode 0x46 r opb = .ok (.pop r)) ∧
  (∀ (s : State) (r : Byte), r.toNat < 8 →
    ∃ t : State, exec (.pop r) s = .next t ∧
      (∀ q : Fin 8, t.regs[q] =
        if q = 7 then
          (if r.toNat = 7 then s.mem.read (s.regs[7]).toNat else s.regs[7]) + 1
        else if q.val = r.toNat then s.mem.read (s.regs[7]).toNat
        else s.regs[q]) ∧
      t.mem = s.mem ∧ t.pc = s.pc + 2 ∧ sameRest s t) ∧
  (∀ (s : State) (r : Byte), 8 ≤ r.toNat →
    exec (.pop r) s = .next { s with
      status := .faulted, fault := some ⟨.registerOutOfBounds r .first, s.pc⟩ })

/-- R130 with the spec's decisions D8 (log entry 12), D9 (CALL R7 jumps to the lowered SP: log entry
13), D3 (a fault changes nothing else: log entry 7) and D20 (the record's fields: log entry 24), which
are choices and no rule of the source. The byte pushed is `pc + 2` reduced modulo
256, which is `pc + 2` itself wherever an instruction executes (the last clause; log entry 28). -/
def Obligations.CallPushesReturnAddressAndJumps : Prop :=
  (∀ r opb, decode 0x50 r opb = .ok (.call r)) ∧
  (∀ (s : State) (r : Byte) (h : r.toNat < 8),
    ∃ t : State, exec (.call r) s = .next t ∧
      t.regs = s.regs.set 7 (s.regs[7] - 1) ∧
      (∀ a : Nat, t.mem.read a =
        if a = (s.regs[7] - 1).toNat then BitVec.ofNat 8 (s.pc.toNat + 2) else s.mem.read a) ∧
      t.pc.toNat = (if r.toNat = 7 then s.regs[7] - 1 else s.regs[r.toNat]'h).toNat ∧
      sameRest s t) ∧
  (∀ (s : State) (r : Byte), 8 ≤ r.toNat →
    exec (.call r) s = .next { s with
      status := .faulted, fault := some ⟨.registerOutOfBounds r .first, s.pc⟩ }) ∧
  (∀ s : State, s.pc.toNat ≤ 253 →
    (BitVec.ofNat 8 (s.pc.toNat + 2)).toNat = s.pc.toNat + 2)

/-- R131. RET: the byte at SP goes to pc, SP is raised, pc does not also advance. That SP wraps from
255 to 0 without a fault is the spec's decision D8 (log entry 12), a choice and no rule of the
source. -/
def Obligations.RetPopsIntoPc : Prop :=
  (∀ opa opb, decode 0x11 opa opb = .ok .ret) ∧
  (∀ s : State, exec .ret s = .next { s with
    regs := s.regs.set 7 (s.regs[7] + 1),
    pc := (s.mem.read (s.regs[7]).toNat).setWidth 9 })

/-- R133. JMP. That a fault changes nothing else is the spec's decision D3 and the record's fields are
D20 (log entries 7, 24), which are choices and no rule of the source. -/
def Obligations.JmpLoadsPc : Prop :=
  (∀ r opb, decode 0x54 r opb = .ok (.jmp r)) ∧
  (∀ (s : State) (r : Byte) (h : r.toNat < 8),
    exec (.jmp r) s = .next { s with pc := (s.regs[r.toNat]'h).setWidth 9 }) ∧
  (∀ (s : State) (r : Byte), 8 ≤ r.toNat →
    exec (.jmp r) s = .next { s with
      status := .faulted, fault := some ⟨.registerOutOfBounds r .first, s.pc⟩ })

/-- R134. JEQ. That the operand is checked on both paths is the spec's decision D5 (log entry 9), that
a fault changes nothing else is D3 and the record's fields are D20 (log entries 7, 24), which are
choices and no rule of the source. -/
def Obligations.JeqJumpsWhenEqual : Prop :=
  (∀ r opb, decode 0x55 r opb = .ok (.jeq r)) ∧
  (∀ (s : State) (r : Byte) (h : r.toNat < 8), s.flags.equal = true →
    exec (.jeq r) s = .next { s with pc := (s.regs[r.toNat]'h).setWidth 9 }) ∧
  (∀ (s : State) (r : Byte), r.toNat < 8 → s.flags.equal = false →
    exec (.jeq r) s = .next { s with pc := s.pc + 2 }) ∧
  (∀ (s : State) (r : Byte), 8 ≤ r.toNat →
    exec (.jeq r) s = .next { s with
      status := .faulted, fault := some ⟨.registerOutOfBounds r .first, s.pc⟩ })

/-- R135. JNE. That the operand is checked on both paths is the spec's decision D5 (log entry 9), that
a fault changes nothing else is D3 and the record's fields are D20 (log entries 7, 24), which are
choices and no rule of the source. -/
def Obligations.JneJumpsWhenNotEqual : Prop :=
  (∀ r opb, decode 0x56 r opb = .ok (.jne r)) ∧
  (∀ (s : State) (r : Byte) (h : r.toNat < 8), s.flags.equal = false →
    exec (.jne r) s = .next { s with pc := (s.regs[r.toNat]'h).setWidth 9 }) ∧
  (∀ (s : State) (r : Byte), r.toNat < 8 → s.flags.equal = true →
    exec (.jne r) s = .next { s with pc := s.pc + 2 }) ∧
  (∀ (s : State) (r : Byte), 8 ≤ r.toNat →
    exec (.jne r) s = .next { s with
      status := .faulted, fault := some ⟨.registerOutOfBounds r .first, s.pc⟩ })

/-! ### Sequences of instructions -/

/-- R136. The four outcomes of JEQ and JNE, by the flag and after a CMP. -/
def Obligations.CompareThenConditionalJump : Prop :=
  (∀ (s : State) (r : Byte) (h : r.toNat < 8),
    ∃ u v : State, exec (.jeq r) s = .next u ∧ exec (.jne r) s = .next v ∧
      u.pc = (if s.flags.equal then (s.regs[r.toNat]'h).setWidth 9 else s.pc + 2) ∧
      v.pc = (if s.flags.equal then s.pc + 2 else (s.regs[r.toNat]'h).setWidth 9)) ∧
  (∀ (s : State) (a b r : Byte) (ha : a.toNat < 8) (hb : b.toNat < 8) (hr : r.toNat < 8),
    ∃ t u v : State, exec (.cmp a b) s = .next t ∧
      exec (.jeq r) t = .next u ∧ exec (.jne r) t = .next v ∧
      u.pc = (if s.regs[a.toNat]'ha = s.regs[b.toNat]'hb then (s.regs[r.toNat]'hr).setWidth 9
        else t.pc + 2) ∧
      v.pc = (if s.regs[a.toNat]'ha = s.regs[b.toNat]'hb then t.pc + 2
        else (s.regs[r.toNat]'hr).setWidth 9))

/-- R132. CALL then RET restores pc to `PC_before_call + 2` and SP; and so does any RET at which SP
is what CALL left and the cell there still holds the return address ("matching"). Flags and the other
registers pass through. That SP wraps is the spec's decision D8 (log entry 12), a choice and no rule
of the source. -/
def Obligations.CallRetSymmetric : Prop :=
  (∀ (s : State) (r : Byte), s.pc.toNat ≤ 253 → r.toNat < 8 →
    ∃ t u : State, exec (.call r) s = .next t ∧ exec .ret t = .next u ∧
      u.pc.toNat = s.pc.toNat + 2 ∧ u.regs = s.regs ∧ u.flags = s.flags) ∧
  (∀ (s t m : State) (r : Byte), s.pc.toNat ≤ 253 → r.toNat < 8 → exec (.call r) s = .next t →
    m.regs[7] = t.regs[7] →
    m.mem.read (t.regs[7]).toNat = t.mem.read (t.regs[7]).toNat →
    ∃ u : State, exec .ret m = .next u ∧ u.pc.toNat = s.pc.toNat + 2 ∧
      u.regs[7] = s.regs[7] ∧ u.flags = m.flags ∧ ∀ q : Fin 8, q ≠ 7 → u.regs[q] = m.regs[q])

/-- R123, first part: PUSH then POP on one register, R7 too, restores every register; the one lasting
change of memory is the byte below SP, which holds the register's value, or for R7 the lowered SP. It
rests on the spec's decisions D8 and D9 (log entries 12, 13), which are choices and no rule of the
source. -/
def Obligations.PushPopRestoresRegisters : Prop :=
  ∀ (s : State) (r : Byte) (h : r.toNat < 8),
    ∃ t u : State, exec (.push r) s = .next t ∧ exec (.pop r) t = .next u ∧
      u.regs = s.regs ∧
      (∀ a : Nat, u.mem.read a =
        if a = (s.regs[7] - 1).toNat then
          (if r.toNat = 7 then s.regs[7] - 1 else s.regs[r.toNat]'h)
        else s.mem.read a) ∧
      u.pc = s.pc + 4 ∧ sameRest s u

/-- R123, second part: pushes and pops are last in, first out. It rests on the spec's decision D8
(log entry 12), a choice and no rule of the source. -/
def Obligations.StackIsLastInFirstOut : Prop :=
  ∀ (s : State) (a b c d : Byte) (ha : a.toNat < 7) (hb : b.toNat < 7) (hc : c.toNat < 7)
    (hd : d.toNat < 7), c ≠ d →
    ∃ s1 s2 s3 s4 : State,
      exec (.push a) s = .next s1 ∧ exec (.push b) s1 = .next s2 ∧
      exec (.pop c) s2 = .next s3 ∧ exec (.pop d) s3 = .next s4 ∧
      s4.regs[c.toNat] = s.regs[b.toNat] ∧
      s4.regs[d.toNat] = s.regs[a.toNat] ∧
      s4.regs[7] = s.regs[7] ∧
      ∀ q : Fin 8, q.val ≠ c.toNat → q.val ≠ d.toNat → s4.regs[q] = s.regs[q]

/-- R138. JMP, JEQ and JNE change pc and nothing else, and PUSH, POP, CALL and RET still use `x[7]`
after them: PUSH and CALL store at the lowered SP, POP and RET read at SP. That SP wraps is the spec's
decision D8 and what PUSH R7 and POP R7 do is D9 (log entries 12, 13), CALL's byte is reduced modulo
256 (log entry 28); these are choices and no rule of the source. -/
def Obligations.JumpsChangeOnlyPc : Prop :=
  ∀ (s t : State) (i : Instr) (r : Byte), r.toNat < 8 →
    i = .jmp r ∨ i = .jeq r ∨ i = .jne r → exec i s = .next t →
    t = { s with pc := t.pc } ∧
    ∀ (q : Byte) (h : q.toNat < 8),
      (∃ u, exec (.push q) t = .next u ∧ u.regs = s.regs.set 7 (s.regs[7] - 1) ∧
        ∀ a : Nat, u.mem.read a =
          if a = (s.regs[7] - 1).toNat then
            (if q.toNat = 7 then s.regs[7] - 1 else s.regs[q.toNat]'h)
          else s.mem.read a) ∧
      (∃ u, exec (.pop q) t = .next u ∧
        (q.toNat ≠ 7 → u.regs[q.toNat] = s.mem.read (s.regs[7]).toNat ∧
          u.regs[7] = s.regs[7] + 1) ∧
        (q.toNat = 7 → u.regs[7] = s.mem.read (s.regs[7]).toNat + 1)) ∧
      (∃ u, exec (.call q) t = .next u ∧ u.regs = s.regs.set 7 (s.regs[7] - 1) ∧
        ∀ a : Nat, u.mem.read a =
          if a = (s.regs[7] - 1).toNat then BitVec.ofNat 8 (t.pc.toNat + 2)
          else s.mem.read a) ∧
      (∃ u, exec .ret t = .next u ∧ u.regs = s.regs.set 7 (s.regs[7] + 1) ∧
        u.pc.toNat = (s.mem.read (s.regs[7]).toNat).toNat)

/-- R101: the exact product of the two unsigned values, at most 65025, modulo 256; the same low byte
whether the operands are read as unsigned or as two's-complement numbers; and nothing else of the
state is written, so there is no carry, overflow or zero indication. -/
def Obligations.AluMultiplyIsProductModulo256 : Prop :=
  ∀ (s : State) (ra rb : Reg),
    (s.regs[ra]).toNat * (s.regs[rb]).toNat ≤ 65025 ∧
    ∃ p : Byte, alu .mul ra rb s = .ok { s with regs := s.regs.set ra p } ∧
      p.toNat = (s.regs[ra]).toNat * (s.regs[rb]).toNat % 256 ∧
      (p.toNat : Int) = (s.regs[ra]).toInt * (s.regs[rb]).toInt % 256

/-- R100, R103. The ALU's two operations, and `UnsupportedOperation` for any other tag (the tag
type's third value is the model's choice: log entry 15). That the comparison is unsigned is the spec's
decision D12 (log entry 16), a choice and no rule of the source. -/
def Obligations.AluOperationsAndUnsupportedTag : Prop :=
  ∀ (s : State) (ra rb : Reg) (code : Nat),
    (∃ p : Byte, p.toNat = (s.regs[ra]).toNat * (s.regs[rb]).toNat % 256 ∧
      alu .mul ra rb s = .ok { s with regs := s.regs.set ra p }) ∧
    (∃ f : Flags, (f.greater = true ↔ (s.regs[ra]).toNat > (s.regs[rb]).toNat) ∧
      (f.less = true ↔ (s.regs[ra]).toNat < (s.regs[rb]).toNat) ∧
      (f.equal = true ↔ s.regs[ra] = s.regs[rb]) ∧
      alu .cmp ra rb s = .ok { s with flags := f }) ∧
    alu (.other code) ra rb s = .error (.unsupportedOperation (.other code))

/-! ### Encoding -/

/-- Words written out from R54's table decode to the instruction they stand for. -/
def Obligations.SampleWordsDecode : Prop :=
  decode 0b00000001 0xFF 0xFF = .ok .hlt ∧
  decode 0b10000010 0b00000000 0b00000101 = .ok (.ldi 0 5) ∧
  decode 0b01000111 0b00000000 0x01 = .ok (.prn 0) ∧
  decode 0b10100010 0b00000000 0b00000001 = .ok (.mul 0 1) ∧
  decode 0b10100111 0b00000001 0b00000000 = .ok (.cmp 1 0) ∧
  decode 0b01000101 0b00000111 0x00 = .ok (.push 7) ∧
  decode 0b01010000 0b00000001 0x47 = .ok (.call 1) ∧
  decode 0x00 0x00 0x00 = .error (.unknownOpcode 0x00)

/-- R54: the table has exactly the twelve entries, in the document's order, and the whole opcode byte
selects the instruction and its operands; the length is 1 for HLT and RET, 3 for LDI, MUL and CMP, 2
for the others. -/
def Obligations.OpcodeMapHasTwelveEntries : Prop :=
  dispatchTable.map (fun row => row.byte) =
    [0x01, 0x82, 0x47, 0xA2, 0x45, 0x46, 0x50, 0x11, 0xA7, 0x54, 0x55, 0x56] ∧
  (∀ (ir a b : Byte) (i : Instr), decode ir a b = .ok i ↔
    (ir = 0b00000001 ∧ i = .hlt) ∨ (ir = 0b10000010 ∧ i = .ldi a b) ∨
    (ir = 0b01000111 ∧ i = .prn a) ∨ (ir = 0b10100010 ∧ i = .mul a b) ∨
    (ir = 0b01000101 ∧ i = .push a) ∨ (ir = 0b01000110 ∧ i = .pop a) ∨
    (ir = 0b01010000 ∧ i = .call a) ∨ (ir = 0b00010001 ∧ i = .ret) ∨
    (ir = 0b10100111 ∧ i = .cmp a b) ∨ (ir = 0b01010100 ∧ i = .jmp a) ∨
    (ir = 0b01010101 ∧ i = .jeq a) ∨ (ir = 0b01010110 ∧ i = .jne a)) ∧
  ∀ i : Instr, (encode i).length = i.length ∧
    (i.length = 1 ↔ i = .hlt ∨ i = .ret) ∧
    (i.length = 3 ↔ ∃ a b, i = .ldi a b ∨ i = .mul a b ∨ i = .cmp a b) ∧
    (i.length = 2 ↔ ∃ r, i = .prn r ∨ i = .push r ∨ i = .pop r ∨ i = .call r ∨ i = .jmp r ∨
      i = .jeq r ∨ i = .jne r)

/-- R50, R54, R55: decoding inverts encoding for every instruction with every operand byte, encoding
inverts decoding for every byte sequence, and a byte is rejected as an opcode exactly when it is none
of the twelve. -/
def Obligations.DecodeEncodeAgree : Prop :=
  (∀ (i : Instr) (rest : List Byte), decodeBytes (encode i ++ rest) = .ok (i, rest)) ∧
  (∀ (bytes rest : List Byte) (i : Instr), decodeBytes bytes = .ok (i, rest) →
    bytes = encode i ++ rest) ∧
  (∀ (b : Byte) (rest : List Byte),
    decodeBytes (b :: rest) = .error (.unknownOpcode b) ↔ b ∉ knownOpcodes)

/-- R50: "Decoding never looks ahead past the instruction's declared length." -/
def Obligations.DecodingIgnoresBytesBeyondLength : Prop :=
  ∀ (ir a b a' b' : Byte) (i : Instr), decode ir a b = .ok i →
    1 ≤ i.length ∧ i.length ≤ 3 ∧
    (i.length ≤ 1 → decode ir a' b' = .ok i) ∧ (i.length ≤ 2 → decode ir a b' = .ok i)

/-! ### The step -/

/-- R71: a step of a running machine is the execution of the instruction that the three bytes at pc
decode to. -/
def Obligations.StepRunsDecodedInstruction : Prop :=
  ∀ (s : State) (i : Instr), s.status = .running → s.pc.toNat ≤ 253 →
    decode (s.mem.read s.pc.toNat) (s.mem.read (s.pc.toNat + 1)) (s.mem.read (s.pc.toNat + 2))
      = .ok i →
    step s = exec i s

/-- R33, R50, R71: an instruction whose encoding stands in memory from pc on is the one that the
step executes, whatever follows it. -/
def Obligations.EncodedInstructionInMemoryRuns : Prop :=
  ∀ (s : State) (i : Instr), s.status = .running → s.pc.toNat ≤ 253 →
    (∀ (k : Nat) (h : k < (encode i).length), s.mem.read (s.pc.toNat + k) = (encode i)[k]) →
    step s = exec i s

/-- R72: no instruction executes from 254, 255 or 256. That the unused fetches are bounds-checked
is the spec's decision D2 and that pc is not reduced is D1 (log entries 6, 5), that a fault changes
nothing else is D3 and the record's fields are D20 (log entries 7, 24), which are choices and no rule
of the source. -/
def Obligations.FetchFaultsAboveAddress253 : Prop :=
  ∀ s : State, s.status = .running → 254 ≤ s.pc.toNat → s.pc.toNat ≤ 256 →
    step s = .next { s with
      status := .faulted, fault := some ⟨.memoryOutOfBounds 256, s.pc⟩ }

/-- R171: an opcode byte without an entry is fatal, is reported with its address, gives a non-zero
exit status, and the run never resumes. That the rest of the state, pc included, is unchanged is the
spec's decision D3 and that the record holds pc is D20 (log entries 7, 24), which are choices and no
rule of the source; the answer `.fault .faulted` for "no step" is the model's form (log entry 3). -/
def Obligations.UnknownOpcodeIsFatal : Prop :=
  ∀ s : State, s.status = .running → s.pc.toNat ≤ 253 →
    s.mem.read s.pc.toNat ∉ knownOpcodes →
    ∃ t : State, step s = .next t ∧
      t = { s with status := .faulted,
                   fault := some ⟨.unknownOpcode (s.mem.read s.pc.toNat) s.pc.toNat, s.pc⟩ } ∧
      (∃ n, exitStatus t = some n ∧ n ≠ 0) ∧
      ∀ k : Nat, run (k + 1) t = .fault .faulted

/-- R177: the order in which faults are detected, and that at most one is raised. Item 1 rests on the
spec's decision D1 (log entry 5), items 2 and 3 on D2, items 5 and 6 on D4 (log entries 6, 8); that
item 5 takes in a JEQ or JNE that is not taken is D5 (log entry 9); what `s.raise` says of the rest of
the state is D3 and of the record's fields D20 (log entries 7, 24). These are choices and no rule of
the source. -/
def Obligations.FaultDetectionOrder : Prop :=
  ∀ s : State, s.status = .running → s.pc.toNat ≤ 256 →
    (253 < s.pc.toNat → step s = .next (s.raise (.memoryOutOfBounds 256))) ∧
    (s.pc.toNat ≤ 253 → s.mem.read s.pc.toNat ∉ knownOpcodes →
      step s = .next (s.raise (.unknownOpcode (s.mem.read s.pc.toNat) s.pc.toNat))) ∧
    (s.pc.toNat ≤ 253 → s.mem.read s.pc.toNat ∈ oneRegisterOpcodes →
      8 ≤ (s.mem.read (s.pc.toNat + 1)).toNat →
      step s = .next (s.raise (.registerOutOfBounds (s.mem.read (s.pc.toNat + 1)) .first))) ∧
    (s.pc.toNat ≤ 253 → s.mem.read s.pc.toNat ∈ twoRegisterOpcodes →
      (s.mem.read (s.pc.toNat + 1)).toNat < 8 → 8 ≤ (s.mem.read (s.pc.toNat + 2)).toNat →
      step s = .next (s.raise (.registerOutOfBounds (s.mem.read (s.pc.toNat + 2)) .second)))

/-- A running machine's step raises no fault exactly when the next instruction's bytes exist, its
opcode has an entry and its register operands are valid (R177 read as a whole; D2, D5: log entries 6,
9). That PUSH and CALL at SP 0 and POP and RET at SP 255 raise none is the spec's decision D8 (log
entry 12, unsafe). These are choices and no rule of the source. -/
def Obligations.StepIsSafeExactlyOnSoundInstructions : Prop :=
  ∀ s : State, s.status = .running →
    (s.NextIsSound ↔ ∃ t : State, step s = .next t ∧ t.Safe)

/-- R175, R176: a faulting step writes the status and the record and nothing else, and the exit
status is not 0. That nothing else is written is the spec's decision D3 and the record's fields are
D20 (log entries 7, 24), which are choices and no rule of the source. -/
def Obligations.FaultingStepCommitsNothing : Prop :=
  ∀ s t : State, s.status = .running → step s = .next t → t.status = .faulted →
    (∃ info : FaultInfo,
      t = { s with status := .faulted, fault := some ⟨info, s.pc⟩ } ∧
      info.kind ≠ .unsupportedOperation ∧ info.kind ≠ .loadError) ∧
    ∃ n, exitStatus t = some n ∧ n ≠ 0

/-- A running machine always takes a step, and no instruction stops on a fault or a refusal of the
model, whatever its operand bytes (R71, R78). That an error of the program is a next state is log
entry 4. -/
def Obligations.RunningMachineAlwaysSteps : Prop :=
  (∀ s : State, s.status = .running → ∃ t : State, step s = .next t) ∧
  (∀ (i : Instr) (s : State), ∃ t : State, exec i s = .next t)

/-- R77: a run ends by HLT or by a fault, then no step is taken, and what the program left in
memory, registers and output stays. That it stays in a faulting step is the spec's decision D3 (log
entry 7), a choice and no rule of the source; the answers for "no step" are the model's form (log
entry 3). -/
def Obligations.RunEndsByHltOrFault : Prop :=
  (∀ s t : State, s.status = .running → step s = .next t → t.status ≠ .running →
    ((t.status = .halted ∧ fetchInstr s = .ok .hlt) ∨ t.status = .faulted) ∧
    t.mem = s.mem ∧ t.regs = s.regs ∧ t.out = s.out) ∧
  (∀ (s : State) (k : Nat), s.status = .halted →
    run (k + 1) s = .fault .halted) ∧
  (∀ (s : State) (k : Nat), s.status = .faulted →
    run (k + 1) s = .fault .faulted)

/-- R75: where pc goes in a step that does not fault: the length is added, without reduction, or a
taken transfer sets it to a byte value and does not also add the length. That pc is wide enough is
the spec's decision D1 (log entry 5), that PUSH and CALL at SP 0 and POP and RET at SP 255 do not
fault is D8 (log entry 12, unsafe) and that CALL R7 goes to the lowered SP is D9 (log entry 13), which
are choices and no rule of the source. -/
def Obligations.PcAdvancesByLengthOrJumps : Prop :=
  ∀ (s t : State) (i : Instr), s.status = .running → fetchInstr s = .ok i →
    i.wellFormed = true → step s = .next t →
    t.pc.toNat ≤ 256 ∧
    (¬ transfersControl i s → t.pc.toNat = s.pc.toNat + i.length) ∧
    (transfersControl i s →
      i = .ret ∧ t.pc.toNat = (s.mem.read (s.regs[7]).toNat).toNat ∨
      ∃ (q : Fin 8) (r : Byte), r.toNat = q.val ∧ t.pc.toNat = (t.regs[q]).toNat ∧
        (i = .call r ∨ i = .jmp r ∨ i = .jeq r ∨ i = .jne r))

/-- R40: a byte stored by PUSH or CALL is what the next fetch of its address reads, with nothing in
between; every other byte is fetched as before. It rests on the spec's decision D8 for the address
and D9 for the byte of PUSH R7 (log entries 12, 13), which are choices and no rule of the source; that
CALL's byte is reduced modulo 256 in states that no step executes in is log entry 28. -/
def Obligations.StoresAreSeenByTheNextFetch : Prop :=
  ∀ (s t : State) (i : Instr) (r : Byte) (p : PcWord) (h : r.toNat < 8),
    i = .push r ∨ i = .call r → exec i s = .next t → p.toNat ≤ 253 →
    ∃ f : Fetched, fetch { t with pc := p } = .ok f ∧
      f.ir = (if p.toNat = (s.regs[7] - 1).toNat then t.mem.read (s.regs[7] - 1).toNat
        else s.mem.read p.toNat) ∧
      f.opa = (if p.toNat + 1 = (s.regs[7] - 1).toNat then t.mem.read (s.regs[7] - 1).toNat
        else s.mem.read (p.toNat + 1)) ∧
      f.opb = (if p.toNat + 2 = (s.regs[7] - 1).toNat then t.mem.read (s.regs[7] - 1).toNat
        else s.mem.read (p.toNat + 2)) ∧
      t.mem.read (s.regs[7] - 1).toNat =
        (if i = .push r then t.regs[r.toNat]'h else BitVec.ofNat 8 (s.pc.toNat + 2))

/-! ### Frames and whole-machine rules -/

/-- R106: MUL does not touch the flags, CMP does not touch the registers, only CMP sets flags, and
no instruction does both. -/
def Obligations.OnlyCompareSetsFlags : Prop :=
  ∀ (i : Instr) (s t : State), exec i s = .next t →
    (∀ a b, i = .mul a b → t.flags = s.flags) ∧
    (∀ a b, i = .cmp a b → t.regs = s.regs) ∧
    (t.flags ≠ s.flags → (∃ a b, i = .cmp a b) ∧ t.regs = s.regs)

/-- R13: once exactly one flag is set, every step keeps it so, and every CMP that executes makes it
so. -/
def Obligations.ExactlyOneFlagFromFirstCompare : Prop :=
  (∀ s t : State, step s = .next t → s.flags.count = 1 → t.flags.count = 1) ∧
  (∀ (s t : State) (a b : Byte), s.status = .running → fetchInstr s = .ok (.cmp a b) →
    step s = .next t → t.status = .running → t.flags.count = 1)

/-- R18: only PRN appends to the output trace, one value, and nothing removes from it. -/
def Obligations.OnlyPrnAppendsOutput : Prop :=
  ∀ s t : State, step s = .next t →
    t.out = s.out ∨
      ∃ (r : Byte) (h : r.toNat < 8), s.status = .running ∧ fetchInstr s = .ok (.prn r) ∧
        t.out = s.out ++ [s.regs[r.toNat]'h]

/-- R18 along a run of any length: the output so far is never taken back, and each step adds at most
one value. -/
def Obligations.OutputOnlyGrowsAlongRuns : Prop :=
  ∀ (k : Nat) (s t : State), run k s = .next t →
    s.out <+: t.out ∧ t.out.length ≤ s.out.length + k

/-- R14: only PUSH and CALL write memory, and only the byte at the lowered SP. That SP wraps is the
spec's decision D8 (log entry 12), a choice and no rule of the source. -/
def Obligations.OnlyPushAndCallWriteMemory : Prop :=
  ∀ (i : Instr) (s t : State) (a : Nat), exec i s = .next t →
    t.mem.read a ≠ s.mem.read a →
    (∃ r : Byte, i = .push r ∨ i = .call r) ∧ a = (s.regs[7] - 1).toNat

/-- R10, the "writes" column: an instruction changes no register that its row does not list. -/
def Obligations.RegisterWritesFollowTable : Prop :=
  ∀ (i : Instr) (s t : State) (q : Fin 8), exec i s = .next t →
    q.val ∉ regsWritten i → t.regs[q] = s.regs[q]

/-- R10, the "reads" column, as non-interference: changing a register that an instruction's row does
not list changes nothing in what the instruction does; that register itself is either left as it was
or overwritten with the same value. -/
def Obligations.RegisterReadsFollowTable : Prop :=
  ∀ (i : Instr) (s t : State) (q : Fin 8) (v : Byte), q.val ∉ regsRead i s →
    exec i s = .next t →
    ∃ u : State, exec i { s with regs := s.regs.set q v } = .next u ∧
      u.pc = t.pc ∧ u.flags = t.flags ∧ u.mem = t.mem ∧ u.status = t.status ∧
      u.fault = t.fault ∧ u.out = t.out ∧
      (∀ p : Fin 8, p ≠ q → u.regs[p] = t.regs[p]) ∧
      (u.regs[q] = t.regs[q] ∨ (u.regs[q] = v ∧ t.regs[q] = s.regs[q]))

/-! ### Invariants -/

/-- R22: `pc` stays in 0 to 256, at most one flag is set; and the memory list stays canonical (log
entry 27). The range of `pc` is the spec's decision D1 (log entry 5), a choice and no rule of the
source. -/
def Obligations.StepKeepsStateInvariant : Prop :=
  ∀ s t : State, s.Inv → step s = .next t → t.Inv

/-- R16, R172, R173, R175: the fault record is there exactly when the run has faulted, tells one of
the possible situations (never `UnsupportedOperation`), and pc is still where the faulting step
began. It rests on the spec's decisions D1, D2, D3 and D20 (log entries 5, 6, 7, 24), which are
choices and no rule of the source. -/
def Obligations.StepKeepsFaultRecordSound : Prop :=
  ∀ s t : State, s.Inv → s.FaultSound → step s = .next t → t.FaultSound

/-- The canonical form is canonical: two memories in it that read the same are the same list (the
model's representation: log entry 27). -/
def Obligations.CanonicalMemoryIsUnique : Prop :=
  ∀ m n : Memory, m.wf → n.wf → (∀ a : Nat, m.read a = n.read a) → m = n

/-! ### Reset, load, run start, status -/

/-- R21, the values that the source states. -/
def Obligations.ResetLeavesStatedValues : Prop :=
  (∀ a : Nat, State.reset.mem.read a = 0) ∧ State.reset.regs[7] = 0xF4 ∧ State.reset.pc = 0 ∧
  State.reset.out = [] ∧ State.reset.fault = none ∧ State.reset.status ≠ .running

/-- R21, the values that are the spec's own decisions D6 and D7 (log entries 10, 11), which are
choices and no rule of the source: registers 0 to 6 and the flags are 0. -/
def Obligations.ResetLeavesDecidedValues : Prop :=
  (∀ q : Fin 8, q ≠ 7 → State.reset.regs[q] = 0) ∧ State.reset.flags = ⟨false, false, false⟩

/-- The invariants hold after reset (the flags by D7: log entry 11). -/
def Obligations.ResetMeetsInvariants : Prop :=
  State.reset.Inv ∧ State.reset.FaultSound

/-- R70: the run start makes the status RUNNING and changes nothing else. That `step` performs the
host's run start from the reset status is the model's choice (log entries 1, 2). -/
def Obligations.RunStartSetsRunning : Prop :=
  ∀ s : State, s.status = .ready → step s = .next { s with status := .running }

/-- R151, R201: the image stands in memory from address 0, padded with zeroes; registers, pc, flags
and output are as reset left them; the run start then makes the machine run. That a longer image is
refused is the spec's decision D15 (log entry 19), a choice and no rule of the source. That `step`
performs the run start and that the loaded list is canonical are the model's choices (log entries 2,
27). -/
def Obligations.ProgramLoadPadsWithZeroes : Prop :=
  (∀ image : List Byte, image.length ≤ 256 →
    ∃ t : State, loadImage image State.reset = some t ∧
      (∀ a : Nat, t.mem.read a = image.getD a 0) ∧ t.mem.wf ∧
      t = { State.reset with mem := t.mem } ∧
      step t = .next { t with status := .running }) ∧
  (∀ (image : List Byte) (s : State), 256 < image.length → loadImage image s = none)

/-- R154, R155: the exit status is 0 after HLT, non-zero after a fault, absent before the run has
ended; after a fault there is a report. The value is the spec's decision D10 (log entry 14) and not
claimed here. -/
def Obligations.ExitStatusAndFaultReport : Prop :=
  ∀ s : State,
    (s.status = .halted → exitStatus s = some 0) ∧
    (s.status = .faulted → ∃ n, exitStatus s = some n ∧ n ≠ 0) ∧
    (s.status = .running ∨ s.status = .ready → exitStatus s = none) ∧
    (s.FaultSound → s.status = .faulted →
      ∃ f, faultReport s = some f ∧ s.fault = some f ∧ f.pc = s.pc)

/-- D17: an executor with a step limit runs only a machine that the host may start, its last state is
the one that at most `limit` steps of the started run give, all `limit` of them when the limit stopped
it, and it says truthfully how it stopped: a run stopped by the limit is neither HALTED nor FAULTED.
The executor is the spec's decision D17 (log entry 21) and that an ended run is not started again is
D19 (log entry 23), which are choices and no rule of the source. -/
def Obligations.StepLimitIsNoEndOfRun : Prop :=
  ∀ (limit : Nat) (s : State),
    (s.status ≠ .ready → execute limit s = none) ∧
    (s.status = .ready → ∃ (e : RunEnd) (t : State) (k : Nat),
      execute limit s = some (e, t) ∧
      k ≤ limit ∧ run k { s with status := .running } = .next t ∧ (e = .stepLimit → k = limit) ∧
      (e = .halted ↔ t.status = .halted) ∧ (e = .faulted ↔ t.status = .faulted) ∧
      (e = .stepLimit ↔ t.status = .running))

/-- R150, R152, R160: what each move of the host does and that it is accepted exactly at its moment:
the reset before or after a run, the load and the start before it. That an ended run is left by reset
only is the spec's decision D19 and that an image fits in 256 bytes D15 (log entries 23, 19); that a
second load overlays the first, that a start needs no load, and that a move outside its moment is
`none` are the model's choices (log entries 33, 34, 35). -/
def Obligations.HostMovesKeepToTheirMoments : Prop :=
  ∀ s : State,
    (hostMove .reset s = if s.status = .running then none else some State.reset) ∧
    (hostMove .start s =
      if s.status = .ready then some { s with status := .running } else none) ∧
    ∀ image : List Byte,
      ((hostMove (.load image) s).isSome ↔ s.status = .ready ∧ image.length ≤ 256) ∧
      ∀ t : State, hostMove (.load image) s = some t →
        t = { s with mem := t.mem } ∧
        ∀ a : Nat, t.mem.read a = if a < image.length then image.getD a 0 else s.mem.read a

/-- R15, R77, R178: from HALTED and FAULTED no step, no host move and no execution leads anywhere but
to the reset state, and RUNNING is entered from the state before a run only. It rests on the spec's
decision D19 (log entry 23), a choice and no rule of the source. -/
def Obligations.EndedRunIsLeftByResetOnly : Prop :=
  ∀ s t : State,
    (step s = .next t ∨ (∃ m, hostMove m s = some t) ∨
      ∃ limit e, execute limit s = some (e, t)) →
    (s.status = .halted ∨ s.status = .faulted → t = State.reset) ∧
    (t.status = .running → s.status = .ready ∨ s.status = .running)

/-- R16, R22, R151: the host's moves keep the invariants too: `pc` and the flags in their range, the
memory list canonical, the fault record sound. The range of `pc` is the spec's decision D1 and the
flags after reset D7 (log entries 5, 11), the canonical form is the model's (log entry 27). -/
def Obligations.HostMovesKeepInvariants : Prop :=
  ∀ (m : HostMove) (s t : State), s.Inv → s.FaultSound → hostMove m s = some t →
    t.Inv ∧ t.FaultSound
end

