-- ==== Sys2Proof/Laws/Memory.lean ====
section
/-! SUPPORT. The memory list: reading after writing, and the canonical form that every memory
operation keeps. -/

namespace Sys2Proof.Machine

@[simp] theorem Memory.read_nil (a : Nat) : Memory.read [] a = Config.memReset := rfl

theorem Memory.read_cons (c : Host.Cell) (m : Memory) (a : Nat) :
    Memory.read (c :: m) a = if a = c.1 then c.2 else Memory.read m a := by
  obtain ⟨k, v⟩ := c
  by_cases h : a = k
  · simp [Memory.read, h]
  · have hk : (a == k) = false := by simpa using h
    simp [Memory.read, List.lookup_cons, h, hk]

theorem Memory.read_insert (m : Memory) (a b : Nat) (v : Byte)
    (h : ∀ c ∈ m, c.1 ≠ a) :
    (Memory.insert a v m).read b = if b = a then v else m.read b := by
  induction m with
  | nil => simp [Memory.insert, Memory.read_cons]
  | cons c m ih =>
    have hc : c.1 ≠ a := h c (by simp)
    have ih := ih fun d hd => h d (by simp [hd])
    unfold Memory.insert
    split
    · rw [Memory.read_cons]
    · rw [Memory.read_cons, ih, Memory.read_cons]
      by_cases hb : b = a
      · simp [hb, Ne.symm hc]
      · simp [hb]

theorem Memory.read_remove (m : Memory) (a b : Nat) :
    Memory.read (m.filter fun c => c.1 != a) b = if b = a then Config.memReset else m.read b := by
  induction m with
  | nil => simp
  | cons c m ih =>
    by_cases hc : c.1 = a
    · simp only [hc, bne_self_eq_false, Bool.false_eq_true, not_false_eq_true,
        List.filter_cons_of_neg, ih, Memory.read_cons]
      by_cases hb : b = a <;> simp [hb]
    · rw [List.filter_cons_of_pos (by simpa using hc), Memory.read_cons, ih, Memory.read_cons]
      by_cases hb : b = a
      · simp [hb, Ne.symm hc]
      · simp [hb]

/-- A read after a write gives the written byte at its address, and what was there elsewhere
(R30); it holds of every list, canonical or not. -/
@[simp] theorem Memory.read_write (m : Memory) (a b : Nat) (v : Byte) :
    (m.write a v).read b = if b = a then v else m.read b := by
  unfold Memory.write
  split
  · rename_i h; rw [Memory.read_remove, h]
  · rw [Memory.read_insert _ _ _ _ (by simp), Memory.read_remove]
    split <;> simp_all

theorem Memory.wf_nil : Memory.wf [] := by simp [Memory.wf]

theorem Memory.wf_cons {c : Host.Cell} {m : Memory} :
    Memory.wf (c :: m) ↔
      (∀ d ∈ m, c.1 < d.1) ∧ c.1 < Config.memCells ∧ c.2 ≠ Config.memReset ∧ m.wf := by
  simp only [Memory.wf, List.pairwise_cons, List.mem_cons, forall_eq_or_imp]
  tauto

theorem Memory.wf_remove {m : Memory} (h : m.wf) (a : Nat) :
    Memory.wf (m.filter fun c => c.1 != a) :=
  ⟨h.1.filter _, fun c hc => h.2 c (List.mem_of_mem_filter hc)⟩

theorem Memory.mem_insert {m : Memory} {a : Nat} {v : Byte} {c : Host.Cell} :
    c ∈ Memory.insert a v m ↔ c = (a, v) ∨ c ∈ m := by
  induction m with
  | nil => simp [Memory.insert]
  | cons d m ih =>
    unfold Memory.insert
    split
    · simp
    · simp only [List.mem_cons, ih]; tauto

theorem Memory.wf_insert {m : Memory} {a : Nat} {v : Byte} (h : m.wf)
    (ha : a < Config.memCells) (hv : v ≠ Config.memReset) (hne : ∀ c ∈ m, c.1 ≠ a) :
    (Memory.insert a v m).wf := by
  induction m with
  | nil => simp [Memory.insert, Memory.wf, ha, hv]
  | cons c m ih =>
    have hc := Memory.wf_cons.1 h
    have hca : c.1 ≠ a := hne c (by simp)
    have ih := ih hc.2.2.2 fun d hd => hne d (by simp [hd])
    unfold Memory.insert
    split
    · rename_i hlt
      refine Memory.wf_cons.2 ⟨fun d hd => ?_, ha, hv, h⟩
      rcases List.mem_cons.1 hd with rfl | hd
      · exact hlt
      · exact lt_trans hlt (hc.1 d hd)
    · rename_i hlt
      refine Memory.wf_cons.2 ⟨fun d hd => ?_, hc.2.1, hc.2.2.1, ih⟩
      rcases Memory.mem_insert.1 hd with rfl | hd
      · exact lt_of_le_of_ne (not_lt.1 hlt) hca
      · exact hc.1 d hd

/-- A write keeps the canonical form. -/
theorem Memory.wf_write {m : Memory} (h : m.wf) {a : Nat} (ha : a < Config.memCells) (v : Byte) :
    (m.write a v).wf := by
  unfold Memory.write
  split
  · exact Memory.wf_remove h a
  · rename_i hv
    exact Memory.wf_insert (Memory.wf_remove h a) ha hv (by simp)

theorem placeByte_wf {m : Memory} (h : m.wf) (a : Nat) (v : Byte) : (placeByte m a v).wf := by
  unfold placeByte
  split
  · exact Memory.wf_write h ‹_› v
  · exact h

/-- Placing an instruction keeps the canonical form. -/
theorem placeFetch_wf {s : State} (h : s.mem.wf) (x y z : Byte) : (placeFetch s x y z).mem.wf :=
  placeByte_wf (placeByte_wf (placeByte_wf h _ _) _ _) _ _

end Sys2Proof.Machine
end

