-- ==== Sys2Proof/Laws/State.lean ====
section
/-! SUPPORT. What each update of the state does to each field, and to reading a register. -/

namespace Sys2Proof.Machine

variable (s : State)

/-! `State.setReg` -/

@[simp] theorem State.setReg_regs (r : Reg) (v : Byte) : (s.setReg r v).regs = s.regs.set r v := rfl
@[simp] theorem State.setReg_pc (r : Reg) (v : Byte) : (s.setReg r v).pc = s.pc := rfl
@[simp] theorem State.setReg_flags (r : Reg) (v : Byte) : (s.setReg r v).flags = s.flags := rfl
@[simp] theorem State.setReg_mem (r : Reg) (v : Byte) : (s.setReg r v).mem = s.mem := rfl
@[simp] theorem State.setReg_status (r : Reg) (v : Byte) : (s.setReg r v).status = s.status := rfl
@[simp] theorem State.setReg_fault (r : Reg) (v : Byte) : (s.setReg r v).fault = s.fault := rfl
@[simp] theorem State.setReg_out (r : Reg) (v : Byte) : (s.setReg r v).out = s.out := rfl

/-! `State.setSp` -/

@[simp] theorem State.setSp_regs (v : Byte) : (s.setSp v).regs = s.regs.set Config.spIndex v := rfl
@[simp] theorem State.setSp_pc (v : Byte) : (s.setSp v).pc = s.pc := rfl
@[simp] theorem State.setSp_flags (v : Byte) : (s.setSp v).flags = s.flags := rfl
@[simp] theorem State.setSp_mem (v : Byte) : (s.setSp v).mem = s.mem := rfl
@[simp] theorem State.setSp_status (v : Byte) : (s.setSp v).status = s.status := rfl
@[simp] theorem State.setSp_fault (v : Byte) : (s.setSp v).fault = s.fault := rfl
@[simp] theorem State.setSp_out (v : Byte) : (s.setSp v).out = s.out := rfl

/-! `State.decSp` -/

@[simp] theorem State.decSp_regs : (s.decSp).regs = s.regs.set Config.spIndex (s.sp - 1) := rfl
@[simp] theorem State.decSp_pc : (s.decSp).pc = s.pc := rfl
@[simp] theorem State.decSp_flags : (s.decSp).flags = s.flags := rfl
@[simp] theorem State.decSp_mem : (s.decSp).mem = s.mem := rfl
@[simp] theorem State.decSp_status : (s.decSp).status = s.status := rfl
@[simp] theorem State.decSp_fault : (s.decSp).fault = s.fault := rfl
@[simp] theorem State.decSp_out : (s.decSp).out = s.out := rfl

/-! `State.incSp` -/

@[simp] theorem State.incSp_regs : (s.incSp).regs = s.regs.set Config.spIndex (s.sp + 1) := rfl
@[simp] theorem State.incSp_pc : (s.incSp).pc = s.pc := rfl
@[simp] theorem State.incSp_flags : (s.incSp).flags = s.flags := rfl
@[simp] theorem State.incSp_mem : (s.incSp).mem = s.mem := rfl
@[simp] theorem State.incSp_status : (s.incSp).status = s.status := rfl
@[simp] theorem State.incSp_fault : (s.incSp).fault = s.fault := rfl
@[simp] theorem State.incSp_out : (s.incSp).out = s.out := rfl

/-! `State.setPc` -/

@[simp] theorem State.setPc_regs (p : PcWord) : (s.setPc p).regs = s.regs := rfl
@[simp] theorem State.setPc_pc (p : PcWord) : (s.setPc p).pc = p := rfl
@[simp] theorem State.setPc_flags (p : PcWord) : (s.setPc p).flags = s.flags := rfl
@[simp] theorem State.setPc_mem (p : PcWord) : (s.setPc p).mem = s.mem := rfl
@[simp] theorem State.setPc_status (p : PcWord) : (s.setPc p).status = s.status := rfl
@[simp] theorem State.setPc_fault (p : PcWord) : (s.setPc p).fault = s.fault := rfl
@[simp] theorem State.setPc_out (p : PcWord) : (s.setPc p).out = s.out := rfl
@[simp] theorem State.setPc_reg (p : PcWord) (q : Reg) : (s.setPc p).reg q = s.reg q := rfl
@[simp] theorem State.setPc_sp (p : PcWord) : (s.setPc p).sp = s.sp := rfl

/-! `State.advance` -/

@[simp] theorem State.advance_regs (n : Nat) : (s.advance n).regs = s.regs := rfl
@[simp] theorem State.advance_pc (n : Nat) : (s.advance n).pc = s.pc + BitVec.ofNat 9 n := rfl
@[simp] theorem State.advance_flags (n : Nat) : (s.advance n).flags = s.flags := rfl
@[simp] theorem State.advance_mem (n : Nat) : (s.advance n).mem = s.mem := rfl
@[simp] theorem State.advance_status (n : Nat) : (s.advance n).status = s.status := rfl
@[simp] theorem State.advance_fault (n : Nat) : (s.advance n).fault = s.fault := rfl
@[simp] theorem State.advance_out (n : Nat) : (s.advance n).out = s.out := rfl
@[simp] theorem State.advance_reg (n : Nat) (q : Reg) : (s.advance n).reg q = s.reg q := rfl
@[simp] theorem State.advance_sp (n : Nat) : (s.advance n).sp = s.sp := rfl

/-! `State.jumpTo` -/

@[simp] theorem State.jumpTo_regs (v : Byte) : (s.jumpTo v).regs = s.regs := rfl
@[simp] theorem State.jumpTo_pc (v : Byte) : (s.jumpTo v).pc = zext9 v := rfl
@[simp] theorem State.jumpTo_flags (v : Byte) : (s.jumpTo v).flags = s.flags := rfl
@[simp] theorem State.jumpTo_mem (v : Byte) : (s.jumpTo v).mem = s.mem := rfl
@[simp] theorem State.jumpTo_status (v : Byte) : (s.jumpTo v).status = s.status := rfl
@[simp] theorem State.jumpTo_fault (v : Byte) : (s.jumpTo v).fault = s.fault := rfl
@[simp] theorem State.jumpTo_out (v : Byte) : (s.jumpTo v).out = s.out := rfl
@[simp] theorem State.jumpTo_reg (v : Byte) (q : Reg) : (s.jumpTo v).reg q = s.reg q := rfl
@[simp] theorem State.jumpTo_sp (v : Byte) : (s.jumpTo v).sp = s.sp := rfl

/-! `State.setFlags` -/

@[simp] theorem State.setFlags_regs (f : Flags) : (s.setFlags f).regs = s.regs := rfl
@[simp] theorem State.setFlags_pc (f : Flags) : (s.setFlags f).pc = s.pc := rfl
@[simp] theorem State.setFlags_flags (f : Flags) : (s.setFlags f).flags = f := rfl
@[simp] theorem State.setFlags_mem (f : Flags) : (s.setFlags f).mem = s.mem := rfl
@[simp] theorem State.setFlags_status (f : Flags) : (s.setFlags f).status = s.status := rfl
@[simp] theorem State.setFlags_fault (f : Flags) : (s.setFlags f).fault = s.fault := rfl
@[simp] theorem State.setFlags_out (f : Flags) : (s.setFlags f).out = s.out := rfl
@[simp] theorem State.setFlags_reg (f : Flags) (q : Reg) : (s.setFlags f).reg q = s.reg q := rfl
@[simp] theorem State.setFlags_sp (f : Flags) : (s.setFlags f).sp = s.sp := rfl

/-! `State.setMem` -/

@[simp] theorem State.setMem_regs (m : Memory) : (s.setMem m).regs = s.regs := rfl
@[simp] theorem State.setMem_pc (m : Memory) : (s.setMem m).pc = s.pc := rfl
@[simp] theorem State.setMem_flags (m : Memory) : (s.setMem m).flags = s.flags := rfl
@[simp] theorem State.setMem_mem (m : Memory) : (s.setMem m).mem = m := rfl
@[simp] theorem State.setMem_status (m : Memory) : (s.setMem m).status = s.status := rfl
@[simp] theorem State.setMem_fault (m : Memory) : (s.setMem m).fault = s.fault := rfl
@[simp] theorem State.setMem_out (m : Memory) : (s.setMem m).out = s.out := rfl
@[simp] theorem State.setMem_reg (m : Memory) (q : Reg) : (s.setMem m).reg q = s.reg q := rfl
@[simp] theorem State.setMem_sp (m : Memory) : (s.setMem m).sp = s.sp := rfl

/-! `State.emit` -/

@[simp] theorem State.emit_regs (v : Byte) : (s.emit v).regs = s.regs := rfl
@[simp] theorem State.emit_pc (v : Byte) : (s.emit v).pc = s.pc := rfl
@[simp] theorem State.emit_flags (v : Byte) : (s.emit v).flags = s.flags := rfl
@[simp] theorem State.emit_mem (v : Byte) : (s.emit v).mem = s.mem := rfl
@[simp] theorem State.emit_status (v : Byte) : (s.emit v).status = s.status := rfl
@[simp] theorem State.emit_fault (v : Byte) : (s.emit v).fault = s.fault := rfl
@[simp] theorem State.emit_out (v : Byte) : (s.emit v).out = s.out ++ [v] := rfl
@[simp] theorem State.emit_reg (v : Byte) (q : Reg) : (s.emit v).reg q = s.reg q := rfl
@[simp] theorem State.emit_sp (v : Byte) : (s.emit v).sp = s.sp := rfl

/-! `State.halt` -/

@[simp] theorem State.halt_regs : (s.halt).regs = s.regs := rfl
@[simp] theorem State.halt_pc : (s.halt).pc = s.pc := rfl
@[simp] theorem State.halt_flags : (s.halt).flags = s.flags := rfl
@[simp] theorem State.halt_mem : (s.halt).mem = s.mem := rfl
@[simp] theorem State.halt_status : (s.halt).status = .halted := rfl
@[simp] theorem State.halt_fault : (s.halt).fault = s.fault := rfl
@[simp] theorem State.halt_out : (s.halt).out = s.out := rfl
@[simp] theorem State.halt_reg (q : Reg) : (s.halt).reg q = s.reg q := rfl
@[simp] theorem State.halt_sp : (s.halt).sp = s.sp := rfl

/-! `State.raise` -/

@[simp] theorem State.raise_regs (e : FaultInfo) : (s.raise e).regs = s.regs := rfl
@[simp] theorem State.raise_pc (e : FaultInfo) : (s.raise e).pc = s.pc := rfl
@[simp] theorem State.raise_flags (e : FaultInfo) : (s.raise e).flags = s.flags := rfl
@[simp] theorem State.raise_mem (e : FaultInfo) : (s.raise e).mem = s.mem := rfl
@[simp] theorem State.raise_status (e : FaultInfo) : (s.raise e).status = .faulted := rfl
@[simp] theorem State.raise_fault (e : FaultInfo) : (s.raise e).fault = some ⟨e, s.pc⟩ := rfl
@[simp] theorem State.raise_out (e : FaultInfo) : (s.raise e).out = s.out := rfl
@[simp] theorem State.raise_reg (e : FaultInfo) (q : Reg) : (s.raise e).reg q = s.reg q := rfl
@[simp] theorem State.raise_sp (e : FaultInfo) : (s.raise e).sp = s.sp := rfl

/-! `State.setRunning` -/

@[simp] theorem State.setRunning_regs : (s.setRunning).regs = s.regs := rfl
@[simp] theorem State.setRunning_pc : (s.setRunning).pc = s.pc := rfl
@[simp] theorem State.setRunning_flags : (s.setRunning).flags = s.flags := rfl
@[simp] theorem State.setRunning_mem : (s.setRunning).mem = s.mem := rfl
@[simp] theorem State.setRunning_status : (s.setRunning).status = .running := rfl
@[simp] theorem State.setRunning_fault : (s.setRunning).fault = s.fault := rfl
@[simp] theorem State.setRunning_out : (s.setRunning).out = s.out := rfl
@[simp] theorem State.setRunning_reg (q : Reg) : (s.setRunning).reg q = s.reg q := rfl
@[simp] theorem State.setRunning_sp : (s.setRunning).sp = s.sp := rfl

/-! Reading a register after writing one. -/

@[simp] theorem State.reg_setReg (r q : Reg) (v : Byte) :
    (s.setReg r v).reg q = if q = r then v else s.reg q := by
  simp only [State.reg, State.setReg, Fin.getElem_fin, Vector.getElem_set, Fin.ext_iff]
  split <;> rename_i h <;> simp [eq_comm, h]

theorem State.sp_eq_reg : s.sp = s.reg Config.spIndex := rfl

@[simp] theorem State.reg_setSp (q : Reg) (v : Byte) :
    (s.setSp v).reg q = if q = Config.spIndex then v else s.reg q := s.reg_setReg _ q v

@[simp] theorem State.reg_decSp (q : Reg) :
    s.decSp.reg q = if q = Config.spIndex then s.sp - 1 else s.reg q := s.reg_setReg _ q _

@[simp] theorem State.reg_incSp (q : Reg) :
    s.incSp.reg q = if q = Config.spIndex then s.sp + 1 else s.reg q := s.reg_setReg _ q _

@[simp] theorem State.sp_setSp (v : Byte) : (s.setSp v).sp = v := by
  simp [State.sp_eq_reg]

@[simp] theorem State.sp_decSp : s.decSp.sp = s.sp - 1 := by
  simp [State.sp_eq_reg]

@[simp] theorem State.sp_incSp : s.incSp.sp = s.sp + 1 := by
  simp [State.sp_eq_reg]

@[simp] theorem State.sp_setReg (r : Reg) (v : Byte) :
    (s.setReg r v).sp = if r = Config.spIndex then v else s.sp := by
  simp [State.sp_eq_reg, eq_comm]

/-- Writing back what a register holds changes nothing. -/
@[simp] theorem State.setReg_reg (r : Reg) : s.setReg r (s.reg r) = s := by
  simp [State.setReg, State.reg]

/-- Register files are equal when they read the same. -/
theorem regs_ext {s t : State} (h : ∀ q : Reg, s.reg q = t.reg q) : s.regs = t.regs := by
  apply Vector.ext
  intro i hi
  exact h ⟨i, hi⟩

end Sys2Proof.Machine
end

