-- ==== Sys2Proof/Laws/Ops.lean ====
section
/-! SUPPORT. For each shared operation, one lemma that says everything it can do. -/

namespace Sys2Proof.Machine

theorem byte_lt_memCells (b : Byte) : b.toNat < Config.memCells := b.isLt

@[simp] theorem commit_ok (s t : State) : commit s (.ok t) = .next t := rfl

@[simp] theorem commit_error (s : State) (e : FaultInfo) :
    commit s (.error e) = .next (s.raise e) := rfl

/-- A committed handler ends in its result, or in fault entry from the state it began in. -/
theorem commit_eq_next {s t : State} {r : Except FaultInfo State} (h : commit s r = .next t) :
    r = .ok t ∨ ∃ e, r = .error e ∧ t = s.raise e := by
  cases r with
  | ok u => left; simpa using h
  | error e => right; exact ⟨e, rfl, by simpa using h.symm⟩

/-- Running one computation after another succeeds when both do. -/
theorem bind_eq_ok {α β : Type} {x : Except FaultInfo α} {f : α → Except FaultInfo β} {b : β}
    (h : (x >>= f) = .ok b) : ∃ a, x = .ok a ∧ f a = .ok b := by
  cases x with
  | ok a => exact ⟨a, rfl, h⟩
  | error e => simp [bind, Except.bind] at h

/-- It fails when the first fails, or the second after it. -/
theorem bind_eq_error {α β : Type} {x : Except FaultInfo α} {f : α → Except FaultInfo β}
    {e : FaultInfo} (h : (x >>= f) = .error e) :
    x = .error e ∨ ∃ a, x = .ok a ∧ f a = .error e := by
  cases x with
  | ok a => exact .inr ⟨a, rfl, h⟩
  | error e' => left; simpa [bind, Except.bind] using h

@[simp] theorem ok_bind {α β : Type} (a : α) (f : α → Except FaultInfo β) :
    ((Except.ok a : Except FaultInfo α) >>= f) = f a := rfl

@[simp] theorem error_bind {α β : Type} (e : FaultInfo) (f : α → Except FaultInfo β) :
    ((Except.error e : Except FaultInfo α) >>= f) = .error e := rfl

@[simp] theorem pure_eq_ok {α : Type} (a : α) : (pure a : Except FaultInfo α) = .ok a := rfl

theorem memRead_of_lt {a : Nat} (h : a < Config.memCells) (s : State) :
    memRead a s = .ok (s.mem.read a) := by simp [memRead, h]

theorem memRead_of_le {a : Nat} (h : Config.memCells ≤ a) (s : State) :
    memRead a s = .error (.memoryOutOfBounds a) := by
  simp [memRead, Nat.not_lt.2 h]

@[simp] theorem memRead_byte (b : Byte) (s : State) :
    memRead b.toNat s = .ok (s.mem.read b.toNat) := memRead_of_lt (byte_lt_memCells b) s

theorem memWrite_of_lt {a : Nat} (h : a < Config.memCells) (v : Byte) (s : State) :
    memWrite a v s = .ok (s.setMem (s.mem.write a v)) := by simp [memWrite, h]

@[simp] theorem memWrite_byte (b v : Byte) (s : State) :
    memWrite b.toNat v s = .ok (s.setMem (s.mem.write b.toNat v)) :=
  memWrite_of_lt (byte_lt_memCells b) v s

/-- A push never faults: SP is a byte (R120). -/
@[simp] theorem push_eq (v : Byte) (s : State) :
    push v s = .ok (s.decSp.setMem (s.mem.write (s.sp - 1).toNat v)) := by
  rw [push, State.sp_decSp]
  exact memWrite_byte _ v s.decSp

/-- A pop never faults: SP is a byte (R120). -/
@[simp] theorem pop_eq (s : State) : pop s = .ok (s.mem.read s.sp.toNat, s.incSp) := by
  simp [pop]

/-- A valid operand byte is its own index (R52). -/
theorem regIndex_of_lt {b : Byte} (h : b.toNat < 8) (slot : OperandSlot) :
    regIndex slot b = .ok ⟨b.toNat, h⟩ := dif_pos h

/-- Any other operand byte is out of bounds (R52). -/
theorem regIndex_of_ge {b : Byte} (h : 8 ≤ b.toNat) (slot : OperandSlot) :
    regIndex slot b = .error (.registerOutOfBounds b slot) := dif_neg (Nat.not_lt.2 h)

theorem regIndex_eq_ok {slot : OperandSlot} {b : Byte} {r : Reg} (h : regIndex slot b = .ok r) :
    b.toNat < 8 ∧ b.toNat = r.val := by
  unfold regIndex at h
  split at h
  · rename_i hb
    cases h
    exact ⟨hb, rfl⟩
  · cases h

theorem regIndex_eq_error {slot : OperandSlot} {b : Byte} {e : FaultInfo}
    (h : regIndex slot b = .error e) : 8 ≤ b.toNat ∧ e = .registerOutOfBounds b slot := by
  unfold regIndex at h
  split at h
  · cases h
  · rename_i hb
    cases h
    exact ⟨Nat.not_lt.1 hb, rfl⟩

theorem regIndexPair_eq_ok {a b : Byte} {p : Reg × Reg} (h : regIndexPair a b = .ok p) :
    regIndex .first a = .ok p.1 ∧ regIndex .second b = .ok p.2 := by
  obtain ⟨ra, ha, h⟩ := bind_eq_ok h
  obtain ⟨rb, hb, h⟩ := bind_eq_ok h
  cases h
  exact ⟨ha, hb⟩

theorem regIndexPair_eq_error {a b : Byte} {e : FaultInfo} (h : regIndexPair a b = .error e) :
    (8 ≤ a.toNat ∧ e = .registerOutOfBounds a .first) ∨
      (a.toNat < 8 ∧ 8 ≤ b.toNat ∧ e = .registerOutOfBounds b .second) := by
  rcases bind_eq_error h with h | ⟨ra, ha, h⟩
  · exact .inl (regIndex_eq_error h)
  · rcases bind_eq_error h with h | ⟨rb, _, h⟩
    · exact .inr ⟨(regIndex_eq_ok ha).1, regIndex_eq_error h⟩
    · cases h

theorem alu_mul (ra rb : Reg) (s : State) :
    alu .mul ra rb s = .ok (s.setReg ra (mulByte (s.reg ra) (s.reg rb))) := rfl

theorem alu_cmp (ra rb : Reg) (s : State) :
    alu .cmp ra rb s = .ok (s.setFlags (compareFlags (s.reg ra) (s.reg rb))) := rfl

/-- The exact product, reduced (R101). -/
@[simp] theorem mulByte_toNat (a b : Byte) : (mulByte a b).toNat = a.toNat * b.toNat % 256 := by
  simp [mulByte]

@[simp] theorem zext9_toNat (v : Byte) : (zext9 v).toNat = v.toNat := by
  have := v.isLt
  simp [zext9, BitVec.toNat_setWidth]; omega

/-- Exactly one flag is set by a comparison (R102). -/
@[simp] theorem compareFlags_count (a b : Byte) : (compareFlags a b).count = 1 := by
  unfold compareFlags Flags.count
  rcases lt_trichotomy a.toNat b.toNat with h | h | h
  · simp [h, Nat.not_lt.2 h.le, h.ne]
  · simp [h]
  · simp [h, Nat.not_lt.2 h.le, h.ne']

end Sys2Proof.Machine
end

