-- ==== Sys2Proof/Laws/Boundary.lean ====
section
/-! SUPPORT. The host's moves: everything each can do, said once. -/

namespace Sys2Proof.Machine

/-- A run start is the bare status write, and only before the run. -/
theorem startRun_eq_some {s t : State} :
    startRun s = some t ↔ s.status = .ready ∧ t = s.setRunning := by
  cases h : s.status <;> simp [startRun, h, eq_comm]

/-- A reset gives the reset state, and not during a run. -/
theorem hostReset_eq_some {s t : State} :
    hostReset s = some t ↔ s.status ≠ .running ∧ t = State.reset := by
  cases h : s.status <;> simp [hostReset, h, eq_comm]

/-- Bytes stored from `a` on, all at addresses that exist: the store succeeds, writes memory only,
and leaves every byte outside them. -/
theorem loadFrom_spec (image : List Byte) (a : Nat) (s : State)
    (h : a + image.length ≤ Config.memCells) :
    ∃ t, loadFrom a image s = .ok t ∧ t = s.setMem t.mem ∧ (s.mem.wf → t.mem.wf) ∧
      ∀ b, t.mem.read b =
        if a ≤ b ∧ b < a + image.length then image.getD (b - a) 0 else s.mem.read b := by
  induction image generalizing a s with
  | nil => exact ⟨s, rfl, rfl, id, fun b => by rw [if_neg (by simp)]⟩
  | cons v rest ih =>
    rw [List.length_cons] at h
    obtain ⟨t, ht, hm, hwf, hr⟩ := ih (a + 1) (s.setMem (s.mem.write a v)) (by omega)
    refine ⟨t, ?_, hm, fun hs => hwf (Memory.wf_write hs (by omega) v), fun b => ?_⟩
    · rw [loadFrom, memWrite_of_lt (by omega), ok_bind, ht]
    · rw [hr b, List.length_cons, State.setMem_mem, Memory.read_write]
      by_cases hb : b = a
      · subst hb
        rw [if_neg (by omega), if_pos rfl, if_pos (by omega), Nat.sub_self]
        rfl
      · by_cases hin : a + 1 ≤ b ∧ b < a + 1 + rest.length
        · rw [if_pos hin, if_pos (by omega), show b - a = (b - (a + 1)) + 1 by omega]
          rfl
        · rw [if_neg hin, if_neg hb, if_neg (by omega)]

/-- A load before the run of an image that fits. -/
theorem loadImage_of_fits {image : List Byte} {s : State} (hs : s.status = .ready)
    (h : image.length ≤ Config.memCells) :
    ∃ t, loadImage image s = some t ∧ t = s.setMem t.mem ∧ (s.mem.wf → t.mem.wf) ∧
      ∀ b, t.mem.read b = if b < image.length then image.getD b 0 else s.mem.read b := by
  obtain ⟨t, ht, hm, hwf, hr⟩ := loadFrom_spec image Config.loadBase s (by
    rw [show Config.loadBase = 0 from rfl]; omega)
  refine ⟨t, ?_, hm, hwf, fun b => ?_⟩
  · rw [loadImage, if_pos ⟨hs, h⟩, ht]
  · rw [hr b, show Config.loadBase = 0 from rfl]
    simp

/-- A load is made before the run only, and only of an image that fits. -/
theorem loadImage_eq_some {image : List Byte} {s t : State} (h : loadImage image s = some t) :
    s.status = .ready ∧ image.length ≤ Config.memCells := by
  unfold loadImage at h
  split at h
  · assumption
  · cases h

end Sys2Proof.Machine
end

