-- ==== Sys2Proof/Laws/Exec.lean ====
section
/-! SUPPORT. Each meaning as one equation over the named operations, with its operand check still to
be decided: `regIndex_of_lt`, `regIndex_of_ge`, `regIndexPair_of_lt` and the two lemmas beside it
decide it. -/

namespace Sys2Proof.Machine

theorem regIndexPair_of_lt {a b : Byte} (ha : a.toNat < 8) (hb : b.toNat < 8) :
    regIndexPair a b = .ok (⟨a.toNat, ha⟩, ⟨b.toNat, hb⟩) := by
  simp [regIndexPair, regIndex_of_lt ha, regIndex_of_lt hb]

theorem regIndexPair_of_ge_first {a : Byte} (ha : 8 ≤ a.toNat) (b : Byte) :
    regIndexPair a b = .error (.registerOutOfBounds a .first) := by
  simp [regIndexPair, regIndex_of_ge ha]

theorem regIndexPair_of_ge_second {a b : Byte} (ha : a.toNat < 8) (hb : 8 ≤ b.toNat) :
    regIndexPair a b = .error (.registerOutOfBounds b .second) := by
  simp [regIndexPair, regIndex_of_lt ha, regIndex_of_ge hb]

/-- HLT (R76). -/
theorem execHlt_eq (s : State) :
    execHlt s = .next (s.advance 1).halt := by
  rfl

/-- LDI (R90). -/
theorem execLdi_eq (reg imm : Byte) (s : State) :
    execLdi reg imm s = .next (match regIndex .first reg with
      | .ok r => (s.setReg r imm).advance 3
      | .error e => s.raise e) := by
  cases h : regIndex .first reg <;> simp [execLdi, h, immediate]

/-- PRN (R91). -/
theorem execPrn_eq (reg : Byte) (s : State) :
    execPrn reg s = .next (match regIndex .first reg with
      | .ok r => (s.emit (s.reg r)).advance 2
      | .error e => s.raise e) := by
  cases h : regIndex .first reg <;> simp [execPrn, h]

/-- MUL (R104). -/
theorem execMul_eq (regA regB : Byte) (s : State) :
    execMul regA regB s = .next (match regIndexPair regA regB with
      | .ok p => (s.setReg p.1 (mulByte (s.reg p.1) (s.reg p.2))).advance 3
      | .error e => s.raise e) := by
  cases h : regIndexPair regA regB <;> simp [execMul, h, alu_mul]

/-- CMP (R105). -/
theorem execCmp_eq (regA regB : Byte) (s : State) :
    execCmp regA regB s = .next (match regIndexPair regA regB with
      | .ok p => (s.setFlags (compareFlags (s.reg p.1) (s.reg p.2))).advance 3
      | .error e => s.raise e) := by
  cases h : regIndexPair regA regB <;> simp [execCmp, h, alu_cmp]

/-- PUSH (R121). -/
theorem execPush_eq (reg : Byte) (s : State) :
    execPush reg s = .next (match regIndex .first reg with
      | .ok r => ((s.decSp.setMem (s.mem.write (s.sp - 1).toNat (s.decSp.reg r))).advance 2)
      | .error e => s.raise e) := by
  cases h : regIndex .first reg <;> simp [execPush, h]

/-- POP (R122). -/
theorem execPop_eq (reg : Byte) (s : State) :
    execPop reg s = .next (match regIndex .first reg with
      | .ok r => ((s.setReg r (s.mem.read s.sp.toNat)).incSp).advance 2
      | .error e => s.raise e) := by
  cases h : regIndex .first reg <;> simp [execPop, h]

/-- CALL (R130). -/
theorem execCall_eq (reg : Byte) (s : State) :
    execCall reg s = .next (match regIndex .first reg with
      | .ok r => ((s.decSp.setMem (s.mem.write (s.sp - 1).toNat (returnAddress s))).jumpTo
          (s.decSp.reg r))
      | .error e => s.raise e) := by
  cases h : regIndex .first reg <;> simp [execCall, h]

/-- RET (R131). -/
theorem execRet_eq (s : State) :
    execRet s = .next (s.incSp.jumpTo (s.mem.read s.sp.toNat)) := by
  simp [execRet]

/-- JMP (R133). -/
theorem execJmp_eq (reg : Byte) (s : State) :
    execJmp reg s = .next (match regIndex .first reg with
      | .ok r => s.jumpTo (s.reg r)
      | .error e => s.raise e) := by
  cases h : regIndex .first reg <;> simp [execJmp, h]

/-- JEQ (R134). -/
theorem execJeq_eq (reg : Byte) (s : State) :
    execJeq reg s = .next (match regIndex .first reg with
      | .ok r => if s.flags.equal then s.jumpTo (s.reg r) else s.advance 2
      | .error e => s.raise e) := by
  cases h : regIndex .first reg <;> simp [execJeq, h]

/-- JNE (R135). -/
theorem execJne_eq (reg : Byte) (s : State) :
    execJne reg s = .next (match regIndex .first reg with
      | .ok r => if s.flags.equal then s.advance 2 else s.jumpTo (s.reg r)
      | .error e => s.raise e) := by
  cases h : regIndex .first reg <;> simp [execJne, h]

end Sys2Proof.Machine
end

