-- ==== Sys2Proof/Laws/PerInstr.lean ====
section
/-! SUPPORT. Statements about every instruction as syntax, one lemma per constructor (LAWS.json). -/

namespace Sys2Proof.Laws.EncodeShape

/-- An instruction's encoding is as long as its format says, and its first byte selects a row of
that format (R50, R54). -/
def Statement (i : Instr) : Prop :=
  (encode i).length = i.length ∧
    ((encode i).head?.bind dispatchRow).map DispatchRow.format = some i.format

theorem hlt : Statement .hlt := ⟨rfl, rfl⟩
theorem ldi (reg imm : Byte) : Statement (.ldi reg imm) := ⟨rfl, rfl⟩
theorem prn (reg : Byte) : Statement (.prn reg) := ⟨rfl, rfl⟩
theorem mul (regA regB : Byte) : Statement (.mul regA regB) := ⟨rfl, rfl⟩
theorem push (reg : Byte) : Statement (.push reg) := ⟨rfl, rfl⟩
theorem pop (reg : Byte) : Statement (.pop reg) := ⟨rfl, rfl⟩
theorem call (reg : Byte) : Statement (.call reg) := ⟨rfl, rfl⟩
theorem ret : Statement .ret := ⟨rfl, rfl⟩
theorem cmp (regA regB : Byte) : Statement (.cmp regA regB) := ⟨rfl, rfl⟩
theorem jmp (reg : Byte) : Statement (.jmp reg) := ⟨rfl, rfl⟩
theorem jeq (reg : Byte) : Statement (.jeq reg) := ⟨rfl, rfl⟩
theorem jne (reg : Byte) : Statement (.jne reg) := ⟨rfl, rfl⟩

end Sys2Proof.Laws.EncodeShape
end

