-- ==== Sys2Proof/Laws/Step.lean ====
section
/-! SUPPORT. What fetching, decoding and a step can do, said once. -/

namespace Sys2Proof

/-- A row the lookup gives is a row of the table with that byte. -/
theorem dispatchRow_eq_some {b : Byte} {row : DispatchRow} (h : dispatchRow b = some row) :
    row ∈ dispatchTable ∧ row.byte = b := by
  refine ⟨List.mem_of_find?_eq_some h, ?_⟩
  simpa using List.find?_some h

/-- What decodes is built from the row of its opcode byte. -/
theorem decode_eq_ok {ir opa opb : Byte} {i : Instr} (h : decode ir opa opb = .ok i) :
    ∃ row, dispatchRow ir = some row ∧ i = row.op.build opa opb := by
  unfold decode at h
  split at h
  · cases h
  · rename_i row hrow
    cases h
    exact ⟨row, hrow, rfl⟩

/-- What does not decode has no row, and is named. -/
theorem decode_eq_error {ir opa opb : Byte} {e : DecodeError} (h : decode ir opa opb = .error e) :
    dispatchRow ir = none ∧ e = .unknownOpcode ir := by
  unfold decode at h
  split at h
  · rename_i hrow
    cases h
    exact ⟨hrow, rfl⟩
  · cases h

end Sys2Proof

namespace Sys2Proof.Machine

/-- Everything a fetch can do: it reads three bytes, or it meets the first address that does not
exist (R72). -/
theorem fetch_eq (s : State) :
    fetch s = if s.pc.toNat ≤ 253 then
        .ok ⟨s.mem.read s.pc.toNat, s.mem.read (s.pc.toNat + 1), s.mem.read (s.pc.toNat + 2)⟩
      else .error (.memoryOutOfBounds (max s.pc.toNat 256)) := by
  unfold fetch
  have hc : Config.memCells = 256 := rfl
  by_cases h0 : s.pc.toNat < 256
  · rw [memRead_of_lt (by omega), ok_bind]
    by_cases h1 : s.pc.toNat < 255
    · rw [memRead_of_lt (by omega), ok_bind]
      by_cases h2 : s.pc.toNat < 254
      · rw [memRead_of_lt (by omega), ok_bind, if_pos (by omega)]; rfl
      · rw [memRead_of_le (by omega), error_bind, if_neg (by omega), max_eq_right (by omega)]
        congr 2; omega
    · rw [memRead_of_le (by omega), error_bind, if_neg (by omega), max_eq_right (by omega)]
      congr 2; omega
  · rw [memRead_of_le (by omega), error_bind, if_neg (by omega), max_eq_left (by omega)]

/-- A fetched instruction was decoded from the three bytes at `pc`, which exist. -/
theorem fetchInstr_eq_ok {s : State} {i : Instr} (h : fetchInstr s = .ok i) :
    s.pc.toNat ≤ 253 ∧
      decode (s.mem.read s.pc.toNat) (s.mem.read (s.pc.toNat + 1)) (s.mem.read (s.pc.toNat + 2))
        = .ok i := by
  obtain ⟨f, hf, h⟩ := bind_eq_ok h
  rw [fetch_eq] at hf
  split at hf
  · rename_i hpc
    cases hf
    refine ⟨hpc, ?_⟩
    split at h
    · rename_i j hj
      cases h
      exact hj
    · cases h
  · cases hf

/-- And conversely. -/
theorem fetchInstr_of_decode {s : State} {i : Instr} (hpc : s.pc.toNat ≤ 253)
    (h : decode (s.mem.read s.pc.toNat) (s.mem.read (s.pc.toNat + 1))
      (s.mem.read (s.pc.toNat + 2)) = .ok i) : fetchInstr s = .ok i := by
  unfold fetchInstr
  rw [fetch_eq, if_pos hpc, ok_bind]
  simp only [h]
  rfl

/-- A fetch fails above 253, or the opcode has no entry. -/
theorem fetchInstr_eq_error {s : State} {e : FaultInfo} (h : fetchInstr s = .error e) :
    (253 < s.pc.toNat ∧ e = .memoryOutOfBounds (max s.pc.toNat 256)) ∨
      (s.pc.toNat ≤ 253 ∧ dispatchRow (s.mem.read s.pc.toNat) = none ∧
        e = .unknownOpcode (s.mem.read s.pc.toNat) s.pc.toNat) := by
  rcases bind_eq_error h with hf | ⟨f, hf, h⟩
  · rw [fetch_eq] at hf
    split at hf
    · cases hf
    · cases hf
      exact .inl ⟨by omega, rfl⟩
  · rw [fetch_eq] at hf
    split at hf
    · rename_i hpc
      cases hf
      split at h
      · cases h
      · rename_i e' he
        cases h
        exact .inr ⟨hpc, (decode_eq_error he).1, rfl⟩
    · cases hf

/-- Before a run, the step is the host's run start (log entry 2). -/
theorem step_of_startRun {s t : State} (h : startRun s = some t) : step s = .next t := by
  obtain ⟨hs, rfl⟩ := startRun_eq_some.1 h
  simp only [step, hs]

/-- Everything a step that answers a next state can be: the run start, a fault of the fetch, or the
execution of the instruction at `pc`. -/
theorem step_next_cases {s t : State} (h : step s = .next t) :
    (s.status = .ready ∧ t = s.setRunning) ∨
      (s.status = .running ∧ ∃ e, fetchInstr s = .error e ∧ t = s.raise e) ∨
      (s.status = .running ∧ ∃ i, fetchInstr s = .ok i ∧ exec i s = .next t) := by
  unfold step at h
  split at h
  · rename_i hs
    cases h
    exact .inl ⟨hs, rfl⟩
  · rename_i hs
    unfold engineStep at h
    split at h
    · rename_i e he
      cases h
      exact .inr (.inl ⟨hs, e, he, rfl⟩)
    · rename_i i hi
      exact .inr (.inr ⟨hs, i, hi, h⟩)
  · cases h
  · cases h

end Sys2Proof.Machine
end

