-- ==== Sys2Proof/Laws/Run.lean ====
section
/-! SUPPORT. Runs of many steps. -/

namespace Sys2Proof.Machine

@[simp] theorem run_zero (s : State) : run 0 s = .next s := rfl

/-- A run of `k + 1` steps is one step and then a run of `k`. -/
theorem run_succ (k : Nat) (s : State) :
    run (k + 1) s =
      (match step s with
      | .next t => run k t
      | .fault r => .fault r
      | .refused r => .refused r) := rfl

theorem run_succ_of_next {s t : State} (h : step s = .next t) (k : Nat) :
    run (k + 1) s = run k t := by
  rw [run_succ, h]

/-- `run` is the host's own run of this machine. -/
theorem run_eq_core (k : Nat) (s : State) : Host.Core.run core k s = run k s := by
  induction k generalizing s with
  | zero => rfl
  | succ k ih =>
    rw [run_succ]
    cases h : step s <;> simp [Host.Core.run, core, h]
    exact ih _

end Sys2Proof.Machine
end

