-- ==== Sys2Proof/Tests/Slice0.lean ====
section
/-! SUPPORT. Tests: ill-formed terms, words of spec/30_encoding.md R54, vectors of
spec/95_test_vectors.md (named in each test), and a witness for every statement with hypotheses. -/

namespace Sys2Proof.Tests

open Sys2Proof Sys2Proof.Machine Sys2Proof.Statements

/-! ### Well-formedness: an ill-formed term for each check -/

theorem test_ldi_register_checked : (Instr.ldi 8 0).wellFormed = false := by decide
theorem test_prn_register_checked : (Instr.prn 8).wellFormed = false := by decide
theorem test_mul_first_checked : (Instr.mul 8 0).wellFormed = false := by decide
theorem test_mul_second_checked : (Instr.mul 0 8).wellFormed = false := by decide
theorem test_push_register_checked : (Instr.push 0xFF).wellFormed = false := by decide
theorem test_pop_register_checked : (Instr.pop 8).wellFormed = false := by decide
theorem test_call_register_checked : (Instr.call 0x80).wellFormed = false := by decide
theorem test_cmp_first_checked : (Instr.cmp 9 7).wellFormed = false := by decide
theorem test_cmp_second_checked : (Instr.cmp 7 9).wellFormed = false := by decide
theorem test_jmp_register_checked : (Instr.jmp 8).wellFormed = false := by decide
theorem test_jeq_register_checked : (Instr.jeq 8).wellFormed = false := by decide
theorem test_jne_register_checked : (Instr.jne 8).wellFormed = false := by decide
theorem test_wellformed_accepts :
    (Instr.ldi 7 0xFF).wellFormed = true ∧ (Instr.cmp 7 0).wellFormed = true := by decide

/-! ### Decoding: every constructor, from R54's bits -/

theorem test_decode_hlt : decodeBytes [0b00000001] = .ok (.hlt, []) := by rfl
theorem test_decode_ldi : decodeBytes [0b10000010, 3, 0xFF] = .ok (.ldi 3 0xFF, []) := by rfl
theorem test_decode_prn : decodeBytes [0b01000111, 7] = .ok (.prn 7, []) := by rfl
theorem test_decode_mul : decodeBytes [0b10100010, 0, 1] = .ok (.mul 0 1, []) := by rfl
theorem test_decode_push : decodeBytes [0b01000101, 4] = .ok (.push 4, []) := by rfl
theorem test_decode_pop : decodeBytes [0b01000110, 5] = .ok (.pop 5, []) := by rfl
theorem test_decode_call : decodeBytes [0b01010000, 1] = .ok (.call 1, []) := by rfl
theorem test_decode_ret : decodeBytes [0b00010001, 0x47] = .ok (.ret, [0x47]) := by rfl
theorem test_decode_cmp : decodeBytes [0b10100111, 2, 6] = .ok (.cmp 2 6, []) := by rfl
theorem test_decode_jmp : decodeBytes [0b01010100, 2] = .ok (.jmp 2, []) := by rfl
theorem test_decode_jeq : decodeBytes [0b01010101, 2] = .ok (.jeq 2, []) := by rfl
theorem test_decode_jne : decodeBytes [0b01010110, 2, 1] = .ok (.jne 2, [1]) := by rfl
theorem test_decode_truncated : decodeBytes [0xA2, 0] = .error .truncated := by rfl
theorem test_decode_nop_is_unknown : decodeBytes [0, 0, 0] = .error (.unknownOpcode 0) := by rfl
theorem test_table_rows_distinct : dispatchTable.Pairwise (fun a b => a.byte ≠ b.byte) := by decide
theorem test_table_word : decodeTableWord 24 0xFF0382 = some (.ldi 3 0xFF) := by decide
theorem test_table_word_short : decodeTableWord 8 0xFFFF11 = some .ret := by decide

/-! ### One step from a small state -/

/-- The bytes at consecutive addresses. -/
def bytesAt (a : Nat) : List Byte → Memory → Memory
  | [], m => m
  | v :: rest, m => bytesAt (a + 1) rest (m.write a v)

/-- The reset state with bytes at `pc` and the run started. -/
def bootAt (pc : PcWord) (code : List Byte) : State :=
  { State.reset with pc := pc, mem := bytesAt pc.toNat code [], status := .running }

/-- The next state's view, if the step answers one. -/
def view {α : Type} (f : State → α) (o : Host.Outcome State Fault Refusal) : Option α :=
  match o with
  | .next t => some (f t)
  | .fault _ => none
  | .refused _ => none

/-- V3. -/
theorem test_hlt : view (fun t => (t.pc, t.status, exitStatus t)) (step (bootAt 0 [0x01, 0xFF, 0xFF]))
    = some (1, .halted, some 0) := by decide
/-- V2. -/
theorem test_hlt_at_253 : view (fun t => (t.pc, t.status)) (step (bootAt 253 [0x01]))
    = some (254, .halted) := by decide
/-- V12. -/
theorem test_ldi : view (fun t => (t.reg 3, t.pc)) (step (bootAt 0 [0x82, 3, 0xFF]))
    = some (255, 3) := by decide
/-- V13. -/
theorem test_ldi_out_of_bounds : view (fun t => (t.fault, t.pc)) (step (bootAt 0 [0x82, 8, 5]))
    = some (some ⟨.registerOutOfBounds 8 .first, 0⟩, 0) := by decide
/-- V16. -/
theorem test_prn_sp : view (fun t => (t.out, t.pc)) (step (bootAt 0 [0x47, 7]))
    = some ([244], 2) := by decide
/-- V18. -/
theorem test_prn_out_of_bounds : view (fun t => (t.status, t.out)) (step (bootAt 0 [0x47, 9]))
    = some (.faulted, []) := by decide
/-- V28. -/
theorem test_mul_wraps : view (fun t => (t.reg 7, t.reg 1))
    (step ((bootAt 0 [0xA2, 7, 1]).setReg 1 2)) = some (0xE8, 2) := by decide
/-- V29. -/
theorem test_mul_first_operand_first : view (fun t => t.fault) (step (bootAt 0 [0xA2, 9, 9]))
    = some (some ⟨.registerOutOfBounds 9 .first, 0⟩) := by decide
/-- V33, with the stale flags of its heading. -/
theorem test_cmp_unsigned : view (fun t => (t.flags, t.pc))
    (step (((bootAt 0 [0xA7, 0, 1]).setReg 1 255).setFlags ⟨true, false, false⟩))
    = some (⟨false, true, false⟩, 3) := by decide
/-- V37. -/
theorem test_cmp_second_out_of_bounds : view (fun t => (t.fault, t.flags))
    (step (bootAt 0 [0xA7, 0, 0x0A]))
    = some (some ⟨.registerOutOfBounds 10 .second, 0⟩, ⟨false, false, false⟩) := by decide
/-- V42. -/
theorem test_push_r7 : view (fun t => (t.sp, t.mem.read 0xF3, t.pc)) (step (bootAt 0 [0x45, 7]))
    = some (0xF3, 0xF3, 2) := by decide
/-- V44. -/
theorem test_push_wraps : view (fun t => (t.sp, t.mem.read 0xFF))
    (step (((bootAt 0 [0x45, 0]).setReg 0 0xAB).setReg 7 0)) = some (0xFF, 0xAB) := by decide
/-- V43. -/
theorem test_pop_r7 : view (fun t => (t.sp, t.pc))
    (step ((bootAt 0 [0x46, 7]).setMem (bytesAt 0xF4 [0x20] (bytesAt 0 [0x46, 7] []))))
    = some (0x21, 2) := by decide
/-- V45. -/
theorem test_pop_wraps : view (fun t => (t.reg 0, t.sp))
    (step (((bootAt 0 [0x46, 0]).setMem (bytesAt 0xFF [0x77] (bytesAt 0 [0x46] []))).setReg 7 0xFF))
    = some (0x77, 0) := by decide
/-- V49b. -/
theorem test_call_r7 : view (fun t => (t.sp, t.mem.read 0xF3, t.pc)) (step (bootAt 0 [0x50, 7]))
    = some (0xF3, 2, 0xF3) := by decide
/-- V49d. -/
theorem test_call_at_253 : view (fun t => (t.mem.read 0xF3, t.pc))
    (step ((bootAt 253 [0x50, 0]).setReg 0 0x10)) = some (0xFF, 0x10) := by decide
/-- V49. -/
theorem test_ret : view (fun t => (t.pc, t.sp))
    (step (((bootAt 0x14 [0x11]).setMem (bytesAt 0xF3 [8] (bytesAt 0x14 [0x11] []))).setReg 7 0xF3))
    = some (8, 0xF4) := by decide
/-- V56. -/
theorem test_jmp : view (fun t => (t.pc, t.sp)) (step ((bootAt 5 [0x54, 2]).setReg 2 0x20))
    = some (0x20, 0xF4) := by decide
/-- V50. -/
theorem test_jeq_taken : view (fun t => t.pc)
    (step (((bootAt 9 [0x55, 2]).setReg 2 0x20).setFlags ⟨false, false, true⟩)) = some 0x20 := by decide
/-- V57. -/
theorem test_jeq_checked_when_not_taken : view (fun t => t.fault) (step (bootAt 0 [0x55, 9]))
    = some (some ⟨.registerOutOfBounds 9 .first, 0⟩) := by decide
/-- V53. -/
theorem test_jne_not_taken : view (fun t => t.pc)
    (step (((bootAt 9 [0x56, 2]).setReg 2 0x20).setFlags ⟨false, false, true⟩)) = some 11 := by decide
/-- V55. -/
theorem test_jne_before_compare : view (fun t => t.pc) (step ((bootAt 0 [0x56, 0]).setReg 0 0x40))
    = some 0x40 := by decide

/-! ### Faults of the fetch, run start, load -/

/-- V60, from the reset state: the first step starts the run, the second meets byte 0. -/
theorem test_empty_memory_is_unknown : view (fun t => (t.fault, exitStatus t)) (run 2 State.reset)
    = some (some ⟨.unknownOpcode 0 0, 0⟩, some 1) := by decide
/-- V61. -/
theorem test_unknown_before_operands : view (fun t => t.fault) (step (bootAt 0 [0xFF, 0xFF, 0xFF]))
    = some (some ⟨.unknownOpcode 0xFF 0, 0⟩) := by decide
/-- V62. -/
theorem test_hlt_at_254 : view (fun t => (t.fault, t.pc)) (step (bootAt 254 [0x01, 0]))
    = some (some ⟨.memoryOutOfBounds 256, 254⟩, 254) := by decide
/-- V65. -/
theorem test_fetch_fault_before_unknown : view (fun t => t.fault) (step (bootAt 255 [0xFF]))
    = some (some ⟨.memoryOutOfBounds 256, 255⟩) := by decide
/-- V66. -/
theorem test_pc_256 : view (fun t => t.fault) (step (bootAt 256 []))
    = some (some ⟨.memoryOutOfBounds 256, 256⟩) := by decide
/-- V67. -/
theorem test_no_step_after_halt : step ((bootAt 0 [0x01]).halt) = .fault .halted := by rfl
/-- P5, step 3 to 4: the pushed byte is fetched next. -/
theorem test_pushed_byte_is_fetched : view (fun t => (t.status, t.pc))
    (run 2 (((bootAt 6 [0x45, 0]).setReg 0 1).setReg 7 9)) = some (.halted, 9) := by decide
/-- R151: the image `82 00 01` of P4. -/
theorem test_load : (loadImage [0x82, 0x00, 0x01] State.reset).map (fun t => (t.mem, t.status))
    = some ([(0, 0x82), (2, 0x01)], .ready) := by decide
/-- The host's check: the placed word runs as the first instruction after reset. -/
theorem test_with_fetch_word : view (fun t => (t.reg 3, t.pc))
    (step (State.reset.withFetchWord 24 0xFF0382)) = some (255, 3) := by decide
/-- R153, D14: `30` and a line feed. -/
theorem test_render : renderOutput (State.reset.emit 30) = ['3', '0', '\n'] := by decide
/-- The same state before its run. -/
def beforeRun (code : List Byte) : State := { bootAt 0 code with status := .ready }

/-- D17: a limit of 1 stops `LDI R0,5` short of any end. -/
theorem test_step_limit : (execute 1 (beforeRun [0x82, 0, 5])).map Prod.fst = some .stepLimit := by
  decide
/-- R152, D19: a finished run is not resumed, neither by a start nor by the executor. -/
theorem test_no_resume : startRun ((bootAt 0 [0x01]).halt) = none ∧
    execute 5 ((bootAt 0 [0x01]).raise (.memoryOutOfBounds 256)) = none := by decide
/-- R160, R200: no reset and no second start during a run; D19: a reset after it. -/
theorem test_reset_moments : hostReset (bootAt 0 [0x01]) = none ∧ startRun (bootAt 0 []) = none ∧
    hostReset ((bootAt 0 [0x01]).halt) = some State.reset := by decide
/-- R151, R160: no load during a run. -/
theorem test_no_load_during_run : loadImage [0x01] (bootAt 0 []) = none := by decide
/-- Log entries 33, 34: a second load overlays the first; the empty image is no change. -/
theorem test_load_again : (hostMove (.load [0x01, 0x11]) State.reset >>= hostMove (.load [0x47])).map
    (fun t => t.mem) = some [(0, 0x47), (1, 0x11)] ∧
    hostMove (.load []) State.reset = some State.reset := by decide

/-! ### Witnesses: the hypotheses of each statement can be met -/

theorem witness_HltHaltsAndAdvances : ∃ t, step (bootAt 253 [0x01]) = .next t ∧ t.status = .halted :=
  ⟨_, rfl, rfl⟩
theorem witness_LdiLoadsImmediate :
    (7 : Byte).toNat < 8 ∧ 8 ≤ (8 : Byte).toNat ∧ (bootAt 253 []).status = .running ∧
      (bootAt 253 []).pc.toNat = 253 := by decide
theorem witness_PrnEmitsRegister : (7 : Byte).toNat < 8 ∧ 8 ≤ (255 : Byte).toNat := by decide
theorem witness_MulMultipliesModulo256 :
    ((7 : Byte).toNat < 8 ∧ (0 : Byte).toNat < 8) ∧ 8 ≤ (8 : Byte).toNat ∧
      ((7 : Byte).toNat < 8 ∧ 8 ≤ (8 : Byte).toNat) := by decide
theorem witness_CmpSetsAllThreeFlags :
    ((0 : Byte).toNat < 8 ∧ (7 : Byte).toNat < 8) ∧ 8 ≤ (8 : Byte).toNat ∧
      ((0 : Byte).toNat < 8 ∧ 8 ≤ (255 : Byte).toNat) ∧
      ∀ a b, Instr.ldi 7 0 ≠ .cmp a b := by simp
theorem witness_PushStoresBelowStackPointer :
    (7 : Byte).toNat < 8 ∧ 8 ≤ (8 : Byte).toNat := by decide
theorem witness_PopLoadsFromStackPointer :
    (7 : Byte).toNat < 8 ∧ 8 ≤ (8 : Byte).toNat := by decide
theorem witness_CallPushesReturnAddressAndJumps :
    (7 : Byte).toNat < 8 ∧ 8 ≤ (8 : Byte).toNat ∧ (bootAt 253 []).pc.toNat ≤ 253 := by decide
theorem witness_JmpLoadsPc : (7 : Byte).toNat < 8 ∧ 8 ≤ (8 : Byte).toNat := by decide
theorem witness_JeqJumpsWhenEqual :
    (7 : Byte).toNat < 8 ∧ 8 ≤ (8 : Byte).toNat ∧ (bootAt 0 []).flags.equal = false ∧
      ((bootAt 0 []).setFlags ⟨false, false, true⟩).flags.equal = true := by decide
theorem witness_JneJumpsWhenNotEqual :
    (7 : Byte).toNat < 8 ∧ 8 ≤ (8 : Byte).toNat ∧ (bootAt 0 []).flags.equal = false ∧
      ((bootAt 0 []).setFlags ⟨false, false, true⟩).flags.equal = true := by decide
theorem witness_CompareThenConditionalJump :
    (0 : Byte).toNat < 8 ∧ (1 : Byte).toNat < 8 ∧ (7 : Byte).toNat < 8 := by decide
theorem witness_CallRetSymmetric :
    ∃ t, (bootAt 253 []).pc.toNat ≤ 253 ∧ (7 : Byte).toNat < 8 ∧
      exec (.call 7) (bootAt 253 []) = .next t ∧ t.regs[7] = t.regs[7] ∧
      t.mem.read (t.regs[7]).toNat = t.mem.read (t.regs[7]).toNat :=
  ⟨_, by decide, by decide, rfl, rfl, rfl⟩
theorem witness_PushPopRestoresRegisters : (7 : Byte).toNat < 8 := by decide
theorem witness_StackIsLastInFirstOut :
    (0 : Byte).toNat < 7 ∧ (6 : Byte).toNat < 7 ∧ (0 : Byte) ≠ 6 := by decide
theorem witness_JumpsChangeOnlyPc :
    ∃ t, (7 : Byte).toNat < 8 ∧ exec (.jeq 7) (bootAt 0 []) = .next t ∧ (6 : Byte).toNat ≠ 7 ∧
      (7 : Byte).toNat = 7 := ⟨_, by decide, rfl, by decide, rfl⟩
theorem witness_DecodeEncodeAgree :
    decodeBytes [0xA2, 0xFF, 0x08, 0x01] = .ok (.mul 0xFF 0x08, [0x01]) := by rfl
theorem witness_DecodingIgnoresBytesBeyondLength :
    decode 0x11 0xFF 0xFF = .ok .ret ∧ Instr.ret.length ≤ 1 ∧ (Instr.jmp 2).length ≤ 2 :=
  ⟨rfl, by decide, by decide⟩
theorem witness_StepRunsDecodedInstruction :
    (bootAt 253 [0x82, 0, 7]).status = .running ∧ (bootAt 253 [0x82, 0, 7]).pc.toNat ≤ 253 ∧
      decode ((bootAt 253 [0x82, 0, 7]).mem.read 253) ((bootAt 253 [0x82, 0, 7]).mem.read 254)
        ((bootAt 253 [0x82, 0, 7]).mem.read 255) = .ok (.ldi 0 7) :=
  ⟨rfl, by decide, rfl⟩
theorem witness_EncodedInstructionInMemoryRuns :
    (bootAt 253 [0x47, 7]).status = .running ∧ (bootAt 253 [0x47, 7]).pc.toNat ≤ 253 ∧
      ∀ (k : Nat) (h : k < (encode (.prn 7)).length),
        (bootAt 253 [0x47, 7]).mem.read (253 + k) = (encode (.prn 7))[k] := by decide
theorem witness_FetchFaultsAboveAddress253 :
    (bootAt 254 []).status = .running ∧ 254 ≤ (bootAt 254 []).pc.toNat ∧ (bootAt 254 []).pc.toNat ≤ 256 ∧
      254 ≤ (bootAt 256 []).pc.toNat ∧ (bootAt 256 []).pc.toNat ≤ 256 := by decide
theorem witness_UnknownOpcodeIsFatal :
    (bootAt 253 [0xA0]).status = .running ∧ (bootAt 253 [0xA0]).pc.toNat ≤ 253 ∧
      (bootAt 253 [0xA0]).mem.read 253 ∉ knownOpcodes := by decide
theorem witness_FaultDetectionOrder_fetch :
    (bootAt 256 []).status = .running ∧ (bootAt 256 []).pc.toNat ≤ 256 ∧ 253 < (bootAt 256 []).pc.toNat := by
  decide
theorem witness_FaultDetectionOrder_unknown :
    (bootAt 253 [0]).status = .running ∧ (bootAt 253 [0]).pc.toNat ≤ 253 ∧
      (bootAt 253 [0]).mem.read 253 ∉ knownOpcodes := by decide
theorem witness_FaultDetectionOrder_first :
    (bootAt 253 [0x55, 8]).status = .running ∧ (bootAt 253 [0x55, 8]).pc.toNat ≤ 253 ∧
      (bootAt 253 [0x55, 8]).mem.read 253 ∈ oneRegisterOpcodes ∧
      8 ≤ ((bootAt 253 [0x55, 8]).mem.read 254).toNat := by decide
theorem witness_FaultDetectionOrder_second :
    (bootAt 253 [0xA7, 7, 8]).status = .running ∧ (bootAt 253 [0xA7, 7, 8]).pc.toNat ≤ 253 ∧
      (bootAt 253 [0xA7, 7, 8]).mem.read 253 ∈ twoRegisterOpcodes ∧
      ((bootAt 253 [0xA7, 7, 8]).mem.read 254).toNat < 8 ∧
      8 ≤ ((bootAt 253 [0xA7, 7, 8]).mem.read 255).toNat := by decide
theorem witness_StepIsSafeExactlyOnSoundInstructions :
    (bootAt 253 [0x47, 7]).status = .running ∧ (bootAt 253 [0x47, 7]).NextIsSound := ⟨rfl, rfl⟩
theorem witness_FaultingStepCommitsNothing :
    ∃ t, (bootAt 0 [0x45, 8]).status = .running ∧ step (bootAt 0 [0x45, 8]) = .next t ∧
      t.status = .faulted := ⟨_, rfl, rfl, rfl⟩
theorem witness_RunningMachineAlwaysSteps : (bootAt 0 [0x45, 8]).status = .running := rfl
theorem witness_RunEndsByHltOrFault :
    ∃ t, (bootAt 0 [0x01]).status = .running ∧ step (bootAt 0 [0x01]) = .next t ∧ t.status ≠ .running ∧
      ((bootAt 0 []).halt).status = .halted ∧
      ((bootAt 0 []).raise (.memoryOutOfBounds 256)).status = .faulted :=
  ⟨_, rfl, rfl, by decide, rfl, rfl⟩
theorem witness_PcAdvancesByLengthOrJumps_advance :
    ∃ t, (bootAt 253 [0x82, 0, 7]).status = .running ∧
      fetchInstr (bootAt 253 [0x82, 0, 7]) = .ok (.ldi 0 7) ∧ (Instr.ldi 0 7).wellFormed = true ∧
      step (bootAt 253 [0x82, 0, 7]) = .next t ∧
      ¬ transfersControl (.ldi 0 7) (bootAt 253 [0x82, 0, 7]) :=
  ⟨_, rfl, rfl, rfl, rfl, by simp [transfersControl]⟩
theorem witness_PcAdvancesByLengthOrJumps_transfer :
    ∃ t, (bootAt 0 [0x50, 7]).status = .running ∧ fetchInstr (bootAt 0 [0x50, 7]) = .ok (.call 7) ∧
      (Instr.call 7).wellFormed = true ∧ step (bootAt 0 [0x50, 7]) = .next t ∧
      transfersControl (.call 7) (bootAt 0 [0x50, 7]) :=
  ⟨_, rfl, rfl, rfl, rfl, .inr ⟨7, .inl rfl⟩⟩
theorem witness_StoresAreSeenByTheNextFetch :
    ∃ t, (7 : Byte).toNat < 8 ∧ exec (.push 7) (bootAt 0 []) = .next t ∧
      (253 : PcWord).toNat ≤ 253 := ⟨_, by decide, rfl, by decide⟩
theorem witness_OnlyCompareSetsFlags :
    ∃ t, exec (.cmp 0 7) (bootAt 0 []) = .next t ∧ t.flags ≠ (bootAt 0 []).flags :=
  ⟨_, rfl, by decide⟩
theorem witness_ExactlyOneFlagFromFirstCompare :
    ∃ t, (bootAt 0 [0xA7, 0, 7]).status = .running ∧
      fetchInstr (bootAt 0 [0xA7, 0, 7]) = .ok (.cmp 0 7) ∧ step (bootAt 0 [0xA7, 0, 7]) = .next t ∧
      t.status = .running ∧
      ((bootAt 0 [0x01]).setFlags ⟨true, false, false⟩).flags.count = 1 ∧
      ∃ u, step ((bootAt 0 [0x01]).setFlags ⟨true, false, false⟩) = .next u :=
  ⟨_, rfl, rfl, rfl, rfl, rfl, _, rfl⟩
theorem witness_OnlyPrnAppendsOutput : ∃ t, step (bootAt 0 [0x47, 7]) = .next t := ⟨_, rfl⟩
theorem witness_OutputOnlyGrowsAlongRuns : ∃ t, run 1 (bootAt 0 [0x47, 7]) = .next t := ⟨_, rfl⟩
theorem witness_OnlyPushAndCallWriteMemory :
    ∃ t, exec (.push 7) (bootAt 0 []) = .next t ∧ t.mem.read 0xF3 ≠ (bootAt 0 []).mem.read 0xF3 :=
  ⟨_, rfl, by decide⟩
theorem witness_RegisterWritesFollowTable :
    ∃ t, exec (.ldi 7 1) (bootAt 0 []) = .next t ∧ (6 : Fin 8).val ∉ regsWritten (.ldi 7 1) :=
  ⟨_, rfl, by decide⟩
theorem witness_RegisterReadsFollowTable :
    ∃ t, exec (.jeq 6) (bootAt 0 []) = .next t ∧ (6 : Fin 8).val ∉ regsRead (.jeq 6) (bootAt 0 []) :=
  ⟨_, rfl, by decide⟩
theorem witness_StepKeepsStateInvariant :
    ∃ t, (bootAt 253 [0x45, 7]).Inv ∧ step (bootAt 253 [0x45, 7]) = .next t :=
  ⟨_, by decide, rfl⟩
theorem witness_StepKeepsFaultRecordSound :
    ∃ t, (bootAt 256 []).Inv ∧ (bootAt 256 []).FaultSound ∧ step (bootAt 256 []) = .next t :=
  ⟨_, by decide, by simp [State.FaultSound, bootAt, State.reset], rfl⟩
theorem witness_CanonicalMemoryIsUnique :
    Memory.wf [(0, 1), (255, 2)] ∧ ∀ a, Memory.read [(0, 1), (255, 2)] a
      = Memory.read [(0, 1), (255, 2)] a := ⟨by decide, fun _ => rfl⟩
theorem witness_RunStartSetsRunning : State.reset.status = .ready := rfl
theorem witness_ProgramLoadPadsWithZeroes :
    (List.replicate 256 (1 : Byte)).length ≤ 256 ∧ 256 < (List.replicate 257 (1 : Byte)).length := by
  rw [List.length_replicate, List.length_replicate]
  decide
theorem witness_ExitStatusAndFaultReport :
    ((bootAt 0 []).halt).status = .halted ∧ (bootAt 0 []).status = .running ∧
      ((bootAt 256 []).raise (.memoryOutOfBounds 256)).status = .faulted ∧
      ((bootAt 256 []).raise (.memoryOutOfBounds 256)).FaultSound := by
  refine ⟨rfl, rfl, rfl, ?_⟩
  simp [State.FaultSound, State.raise, FaultRecord.Possible, bootAt]
theorem witness_StepLimitIsNoEndOfRun :
    ((bootAt 0 [0x01]).halt).status ≠ .ready ∧ (beforeRun [0x01]).status = .ready ∧
      (execute 0 (beforeRun [0x01])).map Prod.fst = some .stepLimit ∧
      (execute 1 (beforeRun [0x01])).map Prod.fst = some .halted := by decide
theorem witness_HostMovesKeepToTheirMoments :
    (hostMove (.load (List.replicate 3 1)) State.reset).isSome = true ∧
      ∃ t, hostMove (.load [0x01]) State.reset = some t := ⟨by decide, _, rfl⟩
theorem witness_EndedRunIsLeftByResetOnly_ended :
    hostMove .reset ((bootAt 0 []).halt) = some State.reset ∧
      ((bootAt 0 []).halt).status = .halted := by decide
theorem witness_EndedRunIsLeftByResetOnly_running :
    ∃ t, hostMove .start (beforeRun [0x01]) = some t ∧ t.status = .running := ⟨_, rfl, rfl⟩
theorem witness_HostMovesKeepInvariants :
    ∃ t, (beforeRun [0x45, 7]).Inv ∧ (beforeRun [0x45, 7]).FaultSound ∧
      hostMove (.load [0x01]) (beforeRun [0x45, 7]) = some t :=
  ⟨_, by decide, by simp [State.FaultSound, beforeRun, bootAt, State.reset], rfl⟩

end Sys2Proof.Tests
end

section
/-! PROOFS. The encoding family (spec/30_encoding.md): what decodes, stated by the rows of the
dispatch table, and which instructions have which length. -/

namespace Sys2Proof

/-- The table has no opcode byte twice, so the lookup gives exactly the rows of the table (R73). -/
theorem dispatchRow_eq_some_iff {b : Byte} {row : DispatchRow} :
    dispatchRow b = some row ↔ row ∈ dispatchTable ∧ row.byte = b := by
  refine ⟨dispatchRow_eq_some, ?_⟩
  rintro ⟨hmem, rfl⟩
  have found : ∀ r ∈ dispatchTable, dispatchRow r.byte = some r := by decide
  exact found row hmem

/-- Three bytes decode to `i` exactly when some row of the table has the whole first byte and
builds `i` from the other two (R54, R71). -/
theorem decode_eq_ok_iff {ir opa opb : Byte} {i : Instr} :
    decode ir opa opb = .ok i ↔
      ∃ row ∈ dispatchTable, ir = row.byte ∧ i = row.op.build opa opb := by
  constructor
  · intro h
    obtain ⟨row, hrow, hi⟩ := decode_eq_ok h
    obtain ⟨hmem, hbyte⟩ := dispatchRow_eq_some hrow
    exact ⟨row, hmem, hbyte.symm, hi⟩
  · rintro ⟨row, hmem, rfl, rfl⟩
    have hrow : dispatchRow row.byte = some row := dispatchRow_eq_some_iff.mpr ⟨hmem, rfl⟩
    simp only [decode, hrow]

/-- Every instruction has the encoding shape that its own law states (R50, R54). -/
theorem encodeShape : ∀ i : Instr, Laws.EncodeShape.Statement i
  | .hlt => Laws.EncodeShape.hlt
  | .ldi r v => Laws.EncodeShape.ldi r v
  | .prn r => Laws.EncodeShape.prn r
  | .mul a b => Laws.EncodeShape.mul a b
  | .push r => Laws.EncodeShape.push r
  | .pop r => Laws.EncodeShape.pop r
  | .call r => Laws.EncodeShape.call r
  | .ret => Laws.EncodeShape.ret
  | .cmp a b => Laws.EncodeShape.cmp a b
  | .jmp r => Laws.EncodeShape.jmp r
  | .jeq r => Laws.EncodeShape.jeq r
  | .jne r => Laws.EncodeShape.jne r

/-- An encoding has as many bytes as the instruction's length says. -/
@[simp] theorem encode_length (i : Instr) : (encode i).length = i.length :=
  (encodeShape i).1

/-- Length 1 is the format without operands. -/
theorem Format.length_eq_one_iff {f : Format} : f.length = 1 ↔ f = .op := by
  cases f <;> decide

/-- Length 2 is the format with one register operand. -/
theorem Format.length_eq_two_iff {f : Format} : f.length = 2 ↔ f = .opR := by
  cases f <;> decide

/-- Length 3 is either of the formats with two operands. -/
theorem Format.length_eq_three_iff {f : Format} : f.length = 3 ↔ f = .opRI ∨ f = .opRR := by
  cases f <;> decide

/-- HLT and RET are the instructions of one byte. -/
theorem Instr.length_eq_one_iff {i : Instr} : i.length = 1 ↔ i = .hlt ∨ i = .ret := by
  rw [Instr.length, Format.length_eq_one_iff]
  cases i <;> simp [Instr.format]

/-- LDI, MUL and CMP are the instructions of three bytes. -/
theorem Instr.length_eq_three_iff {i : Instr} :
    i.length = 3 ↔ ∃ a b, i = .ldi a b ∨ i = .mul a b ∨ i = .cmp a b := by
  rw [Instr.length, Format.length_eq_three_iff]
  cases i <;> simp [Instr.format]

/-- PRN and the stack and jump instructions with a register are the instructions of two bytes. -/
theorem Instr.length_eq_two_iff {i : Instr} :
    i.length = 2 ↔ ∃ r, i = .prn r ∨ i = .push r ∨ i = .pop r ∨ i = .call r ∨ i = .jmp r ∨
      i = .jeq r ∨ i = .jne r := by
  rw [Instr.length, Format.length_eq_two_iff]
  cases i <;> simp [Instr.format]

/-- Settles O54: the decoder answers by the rows of the table, which are the twelve entries, and an
instruction's length is its format's. -/
theorem opcodeMapHasTwelveEntries : Obligations.OpcodeMapHasTwelveEntries := by
  refine ⟨rfl, fun ir a b i => ?_, fun i => ?_⟩
  · rw [decode_eq_ok_iff]
    simp [dispatchTable, Opcode.build]
  · exact ⟨encode_length i, Instr.length_eq_one_iff, Instr.length_eq_three_iff,
      Instr.length_eq_two_iff⟩

end Sys2Proof
end

section
/-! PROOFS. The ALU family (spec/42_alu_mul_cmp.md): which instruction may write the flags, and the
product as a signed and as an unsigned byte. -/

namespace Sys2Proof.Machine

/-- The registers are bytes, so a product of two is at most `255 * 255` (R101). -/
theorem byte_mul_byte_le (a b : Byte) : a.toNat * b.toNat ≤ 65025 :=
  Nat.mul_le_mul (Nat.le_of_lt_succ a.isLt) (Nat.le_of_lt_succ b.isLt)

/-- The ALU's product is the product of bit vectors. -/
theorem mulByte_eq_mul (a b : Byte) : mulByte a b = a * b := by
  rw [mulByte, BitVec.ofNat_mul, BitVec.ofNat_toNat, BitVec.ofNat_toNat, BitVec.setWidth_eq,
    BitVec.setWidth_eq]

/-- The same low byte is the product of the two's-complement values, reduced (R101). -/
theorem mulByte_toNat_eq_toInt_mul (a b : Byte) :
    ((mulByte a b).toNat : Int) = a.toInt * b.toInt % 256 := by
  calc ((mulByte a b).toNat : Int)
      = ((a * b).toNat : Int) := by rw [mulByte_eq_mul]
    _ = ((a * b).toNat : Int) % 256 := by
      have := (a * b).isLt
      omega
    _ = (a * b).toInt % 256 := by
      rw [BitVec.toInt_eq_toNat_bmod]
      exact Int.bmod_emod.symm
    _ = a.toInt * b.toInt % 256 := by rw [BitVec.toInt_mul]; exact Int.bmod_emod

/-- CMP keeps the registers, whether it executes or faults (R105, R106, R176). -/
theorem execCmp_keeps_regs {a b : Byte} {s t : State} (h : execCmp a b s = .next t) :
    t.regs = s.regs := by
  rw [execCmp_eq] at h
  cases h
  split <;> rfl

/-- No instruction but CMP writes a flag, whether it executes or faults (R13, R106, R176). -/
theorem exec_keeps_flags {i : Instr} {s t : State} (h : exec i s = .next t)
    (hi : ¬ ∃ a b, i = .cmp a b) : t.flags = s.flags := by
  cases i with
  | cmp a b => exact absurd ⟨a, b, rfl⟩ hi
  | hlt => rw [exec, execHlt_eq] at h; cases h; rfl
  | ret => rw [exec, execRet_eq] at h; cases h; rfl
  | ldi r v => rw [exec, execLdi_eq] at h; cases h; split <;> rfl
  | prn r => rw [exec, execPrn_eq] at h; cases h; split <;> rfl
  | mul a b => rw [exec, execMul_eq] at h; cases h; split <;> rfl
  | push r => rw [exec, execPush_eq] at h; cases h; split <;> rfl
  | pop r => rw [exec, execPop_eq] at h; cases h; split <;> rfl
  | call r => rw [exec, execCall_eq] at h; cases h; split <;> rfl
  | jmp r => rw [exec, execJmp_eq] at h; cases h; split <;> rfl
  | jeq r =>
    rw [exec, execJeq_eq] at h; cases h
    split
    · split <;> rfl
    · rfl
  | jne r =>
    rw [exec, execJne_eq] at h; cases h
    split
    · split <;> rfl
    · rfl

end Sys2Proof.Machine

namespace Sys2Proof

open Machine

/-- Settles O33: only CMP writes a flag, and CMP writes no register. -/
theorem onlyCompareSetsFlags : Obligations.OnlyCompareSetsFlags := by
  intro i s t h
  refine ⟨?_, ?_, fun hflags => ?_⟩
  · rintro a b rfl
    exact exec_keeps_flags h (by simp)
  · rintro a b rfl
    exact execCmp_keeps_regs h
  · have hcmp : ∃ a b, i = .cmp a b := not_not.1 fun hi => hflags (exec_keeps_flags h hi)
    obtain ⟨a, b, rfl⟩ := hcmp
    exact ⟨⟨a, b, rfl⟩, execCmp_keeps_regs h⟩

/-- Settles O53: the multiply writes `mulByte` of the two registers to the first and nothing else. -/
theorem aluMultiplyIsProductModulo256 : Obligations.AluMultiplyIsProductModulo256 := fun s ra rb =>
  ⟨byte_mul_byte_le _ _, mulByte (s.reg ra) (s.reg rb), alu_mul ra rb s, mulByte_toNat _ _,
    mulByte_toNat_eq_toInt_mul _ _⟩

end Sys2Proof
end

section
/-! PROOFS. The control-flow family (spec/44_control_flow.md): the two conditional jumps, by the flag
and after a compare. -/

namespace Sys2Proof.Machine

variable {s : State} {a b r : Byte}

/-- JEQ with a valid operand: the flag alone selects the jump or the fall-through (R134). -/
theorem exec_jeq_of_lt (hr : r.toNat < 8) :
    exec (.jeq r) s =
      .next (if s.flags.equal then s.jumpTo (s.reg ⟨r.toNat, hr⟩) else s.advance 2) := by
  rw [exec, execJeq_eq, regIndex_of_lt hr]

/-- JNE with a valid operand: the same two ends, the other way round (R135). -/
theorem exec_jne_of_lt (hr : r.toNat < 8) :
    exec (.jne r) s =
      .next (if s.flags.equal then s.advance 2 else s.jumpTo (s.reg ⟨r.toNat, hr⟩)) := by
  rw [exec, execJne_eq, regIndex_of_lt hr]

/-- CMP with valid operands writes the flags of the comparison and moves on (R105). -/
theorem exec_cmp_of_lt (ha : a.toNat < 8) (hb : b.toNat < 8) :
    exec (.cmp a b) s = .next ((s.setFlags
      (compareFlags (s.reg ⟨a.toNat, ha⟩) (s.reg ⟨b.toNat, hb⟩))).advance 3) := by
  rw [exec, execCmp_eq, regIndexPair_of_lt ha hb]

/-- Equal is set exactly for two equal bytes (R102). -/
theorem compareFlags_equal_iff {x y : Byte} : (compareFlags x y).equal = true ↔ x = y := by
  rw [compareFlags, decide_eq_true_iff, BitVec.toNat_inj]

/-- The conditional jumps of one state leave at the target and at `pc + 2`: JEQ at the target when
Equal is set, JNE when it is clear (R136). -/
theorem jeq_jne_pc (s : State) (hr : r.toNat < 8) :
    ∃ u v : State, exec (.jeq r) s = .next u ∧ exec (.jne r) s = .next v ∧
      u.pc = (if s.flags.equal then (s.regs[r.toNat]'hr).setWidth 9 else s.pc + 2) ∧
      v.pc = (if s.flags.equal then s.pc + 2 else (s.regs[r.toNat]'hr).setWidth 9) := by
  refine ⟨_, _, exec_jeq_of_lt hr, exec_jne_of_lt hr, ?_, ?_⟩
  · split <;> rfl
  · split <;> rfl

/-- After a CMP that does not fault, Equal says whether the two registers were equal, and the
registers are as before. -/
theorem cmp_equal_and_regs (s : State) (ha : a.toNat < 8) (hb : b.toNat < 8) :
    ∃ t : State, exec (.cmp a b) s = .next t ∧ t.regs = s.regs ∧
      (t.flags.equal = true ↔ s.regs[a.toNat]'ha = s.regs[b.toNat]'hb) :=
  ⟨_, exec_cmp_of_lt ha hb, rfl, compareFlags_equal_iff⟩

end Sys2Proof.Machine

namespace Sys2Proof

open Machine

/-- Settles O13: the flag selects the end of each conditional jump, and a CMP leaves the flag saying
whether its two registers are equal. -/
theorem compareThenConditionalJump : Obligations.CompareThenConditionalJump := by
  refine ⟨fun s r hr => jeq_jne_pc s hr, fun s a b r ha hb hr => ?_⟩
  obtain ⟨t, hcmp, hregs, hequal⟩ := cmp_equal_and_regs s ha hb
  obtain ⟨u, v, hjeq, hjne, hu, hv⟩ := jeq_jne_pc t hr
  simp only [hequal, hregs] at hu hv
  exact ⟨t, u, v, hcmp, hjeq, hjne, hu, hv⟩

end Sys2Proof
end

section
/-! PROOFS. More of the encoding family (spec/30_encoding.md): the rows of the table against the
encoder, both ways. -/

namespace Sys2Proof

open Statements

/-- The twelve bytes are the bytes of the table's rows (R54). -/
theorem mem_knownOpcodes_iff {b : Byte} : b ∈ knownOpcodes ↔ ∃ row ∈ dispatchTable, row.byte = b := by
  have hperm : knownOpcodes.Perm (dispatchTable.map DispatchRow.byte) := by decide
  rw [hperm.mem_iff, List.mem_map]

/-- A byte has no row exactly when it is none of the twelve (R55). -/
theorem dispatchRow_eq_none_iff {b : Byte} : dispatchRow b = none ↔ b ∉ knownOpcodes := by
  rw [mem_knownOpcodes_iff, dispatchRow, List.find?_eq_none]
  simp

/-- A row builds instructions of its own format (R54). -/
theorem format_build_of_mem (opa opb : Byte) :
    ∀ row ∈ dispatchTable, (row.op.build opa opb).format = row.format := by
  simp [dispatchTable, Opcode.build, Instr.format]

/-- What a row builds is encoded as the row's byte and the operand bytes of its format (R50, R54). -/
theorem encode_build_of_mem (opa opb : Byte) :
    ∀ row ∈ dispatchTable,
      encode (row.op.build opa opb) = row.byte :: [opa, opb].take row.format.operandCount := by
  simp [dispatchTable, Opcode.build, encode, Format.operandCount]

/-- A format without operands drops both fetched bytes (R50). -/
theorem build_congr_of_operandCount_zero (opa opb opa' opb' : Byte) :
    ∀ row ∈ dispatchTable, row.format.operandCount = 0 →
      row.op.build opa opb = row.op.build opa' opb' := by
  simp [dispatchTable, Opcode.build, Format.operandCount]

/-- A format of at most one operand drops the third fetched byte (R50). -/
theorem build_congr_of_operandCount_le_one (opa opb opb' : Byte) :
    ∀ row ∈ dispatchTable, row.format.operandCount ≤ 1 →
      row.op.build opa opb = row.op.build opa opb' := by
  simp [dispatchTable, Opcode.build, Format.operandCount]

theorem Format.operandCount_le_two (f : Format) : f.operandCount ≤ 2 := by
  cases f <;> decide

/-- An instruction is one opcode byte and the operands of its format (R50). -/
theorem Instr.length_eq (i : Instr) : i.length = 1 + i.format.operandCount := rfl

theorem Instr.length_le_three (i : Instr) : i.length ≤ 3 := by
  have := i.format.operandCount_le_two
  rw [Instr.length_eq]
  omega

/-- The first operand bytes of a sequence, as `decodeBytes` reads them. -/
theorem take_getD_eq_take {bytes : List Byte} {n : Nat} (hn : n ≤ 2) (hlen : n ≤ bytes.length) :
    [bytes.getD 0 0, bytes.getD 1 0].take n = bytes.take n := by
  match n, bytes, hlen with
  | 0, _, _ => rfl
  | 1, _ :: _, _ => rfl
  | 2, _ :: _ :: _, _ => rfl

/-- An encoding is an opcode byte and operand bytes, which decode to it whatever follows. -/
theorem encode_eq_cons (i : Instr) (rest : List Byte) :
    ∃ ir operands, encode i = ir :: operands ∧ operands.length = i.format.operandCount ∧
      decode ir ((operands ++ rest).getD 0 0) ((operands ++ rest).getD 1 0) = .ok i := by
  cases i <;> exact ⟨_, _, rfl, rfl, rfl⟩

/-- Decoding an encoding gives the instruction and what follows it (R50, R54). -/
theorem decodeBytes_encode (i : Instr) (rest : List Byte) :
    decodeBytes (encode i ++ rest) = .ok (i, rest) := by
  obtain ⟨ir, operands, henc, hlen, hdec⟩ := encode_eq_cons i rest
  rw [henc, List.cons_append, decodeBytes]
  simp only [hdec]
  rw [← hlen, if_neg (by simp), List.drop_left]

/-- What `decodeBytes` gives was decoded from the first byte and the two after it, and leaves the
bytes beyond the operands. -/
theorem decodeBytes_eq_ok {bytes rest : List Byte} {i : Instr}
    (h : decodeBytes bytes = .ok (i, rest)) :
    ∃ ir tail, bytes = ir :: tail ∧ decode ir (tail.getD 0 0) (tail.getD 1 0) = .ok i ∧
      i.format.operandCount ≤ tail.length ∧ rest = tail.drop i.format.operandCount := by
  cases bytes with
  | nil => cases h
  | cons ir tail =>
    rw [decodeBytes] at h
    split at h
    · cases h
    · rename_i j hj
      split at h
      · cases h
      · rename_i hlen
        cases h
        exact ⟨ir, tail, rfl, hj, Nat.not_lt.1 hlen, rfl⟩

/-- Whatever decodes is the encoding of what it decodes to. -/
theorem encode_of_decodeBytes {bytes rest : List Byte} {i : Instr}
    (h : decodeBytes bytes = .ok (i, rest)) : bytes = encode i ++ rest := by
  obtain ⟨ir, tail, rfl, hdec, hlen, rfl⟩ := decodeBytes_eq_ok h
  obtain ⟨row, hmem, rfl, rfl⟩ := decode_eq_ok_iff.1 hdec
  rw [format_build_of_mem _ _ row hmem] at hlen ⊢
  rw [encode_build_of_mem _ _ row hmem, take_getD_eq_take row.format.operandCount_le_two hlen,
    List.cons_append, List.take_append_drop]

/-- A sequence is rejected for its first byte exactly when that has no row (R55). -/
theorem decodeBytes_eq_unknownOpcode_iff {b : Byte} {rest : List Byte} :
    decodeBytes (b :: rest) = .error (.unknownOpcode b) ↔ dispatchRow b = none := by
  cases hdec : decode b (rest.getD 0 0) (rest.getD 1 0) with
  | error e =>
    obtain ⟨hrow, rfl⟩ := decode_eq_error hdec
    simp only [decodeBytes, hdec, hrow]
  | ok i =>
    obtain ⟨row, hrow, _⟩ := decode_eq_ok hdec
    simp only [decodeBytes, hdec, hrow, reduceCtorEq, iff_false]
    split <;> simp

/-- Settles O20: the round trip both ways from the rows of the table, and the rejected bytes are
those without a row. -/
theorem decodeEncodeAgree : Obligations.DecodeEncodeAgree :=
  ⟨decodeBytes_encode, fun _ _ _ => encode_of_decodeBytes,
    fun _ _ => decodeBytes_eq_unknownOpcode_iff.trans dispatchRow_eq_none_iff⟩

/-- Settles O21: a row's format says which of the fetched bytes the instruction keeps. -/
theorem decodingIgnoresBytesBeyondLength : Obligations.DecodingIgnoresBytesBeyondLength := by
  intro ir opa opb opa' opb' i h
  obtain ⟨row, hmem, rfl, rfl⟩ := decode_eq_ok_iff.1 h
  have hcount := row.format.operandCount_le_two
  rw [Instr.length_eq, format_build_of_mem _ _ row hmem]
  refine ⟨by omega, by omega, fun hlen => ?_, fun hlen => ?_⟩
  · exact decode_eq_ok_iff.2
      ⟨row, hmem, rfl, build_congr_of_operandCount_zero _ _ _ _ row hmem (by omega)⟩
  · exact decode_eq_ok_iff.2
      ⟨row, hmem, rfl, build_congr_of_operandCount_le_one _ _ _ row hmem (by omega)⟩

/-- Settles O19: each word is looked up in the table. -/
theorem sampleWordsDecode : Obligations.SampleWordsDecode := by
  unfold Obligations.SampleWordsDecode
  decide

/-- Three bytes decode as the sequence of them does. -/
theorem decode_of_decodeBytes {ir opa opb : Byte} {i : Instr} {rest : List Byte}
    (h : decodeBytes [ir, opa, opb] = .ok (i, rest)) : decode ir opa opb = .ok i := by
  obtain ⟨_, _, heq, hdec, _⟩ := decodeBytes_eq_ok h
  cases heq
  exact hdec

/-- Three bytes that begin with an instruction's encoding decode to it (R33, R50). -/
theorem decode_of_encode_prefix {ir opa opb : Byte} {i : Instr}
    (h : encode i <+: [ir, opa, opb]) : decode ir opa opb = .ok i := by
  obtain ⟨rest, hrest⟩ := h
  refine decode_of_decodeBytes (rest := rest) ?_
  rw [← hrest, decodeBytes_encode]

end Sys2Proof
end

section
/-! PROOFS. Everything an execution can do, said once: the effect of an instruction with valid
operands, or a fault of an operand (spec/60_exceptions.md R172, R176, R177). -/

namespace Sys2Proof

/-- The first operand byte that names a register (R52). -/
def Instr.firstReg? : Instr → Option Byte
  | .hlt => none
  | .ldi r _ => some r
  | .prn r => some r
  | .mul a _ => some a
  | .push r => some r
  | .pop r => some r
  | .call r => some r
  | .ret => none
  | .cmp a _ => some a
  | .jmp r => some r
  | .jeq r => some r
  | .jne r => some r

/-- The second operand byte that names a register: MUL and CMP have one (R52). -/
def Instr.secondReg? : Instr → Option Byte
  | .mul _ b => some b
  | .cmp _ b => some b
  | _ => none

theorem validRegByte_iff {b : Byte} : validRegByte b = true ↔ b.toNat < 8 := decide_eq_true_iff

/-- Well formed is: the register operands are 0 to 7 (R52). -/
theorem Instr.wellFormed_iff {i : Instr} :
    i.wellFormed = true ↔
      (∀ a ∈ i.firstReg?, a.toNat < 8) ∧ ∀ b ∈ i.secondReg?, b.toNat < 8 := by
  cases i <;> simp [Instr.wellFormed, Instr.firstReg?, Instr.secondReg?, validRegByte_iff]

/-- An instruction with no first register operand has no second. -/
theorem Instr.firstReg?_of_secondReg? {i : Instr} {b : Byte} (h : i.secondReg? = some b) :
    ∃ a, i.firstReg? = some a := by
  cases i with
  | mul a _ => exact ⟨a, rfl⟩
  | cmp a _ => exact ⟨a, rfl⟩
  | _ => cases h

end Sys2Proof

namespace Sys2Proof.Machine

/-! ### The push as one state update -/

/-- The state that `Push(v)` of R120 leaves. -/
def State.pushByte (s : State) (v : Byte) : State :=
  s.decSp.setMem (s.mem.write (s.sp - 1).toNat v)

/-- The model's push answers it. -/
theorem push_eq_pushByte (v : Byte) (s : State) : push v s = .ok (s.pushByte v) := push_eq v s

section
variable (s : State) (v : Byte)

@[simp] theorem State.pushByte_regs :
    (s.pushByte v).regs = s.regs.set Config.spIndex (s.sp - 1) := rfl
@[simp] theorem State.pushByte_pc : (s.pushByte v).pc = s.pc := rfl
@[simp] theorem State.pushByte_flags : (s.pushByte v).flags = s.flags := rfl
@[simp] theorem State.pushByte_mem :
    (s.pushByte v).mem = s.mem.write (s.sp - 1).toNat v := rfl
@[simp] theorem State.pushByte_status : (s.pushByte v).status = s.status := rfl
@[simp] theorem State.pushByte_fault : (s.pushByte v).fault = s.fault := rfl
@[simp] theorem State.pushByte_out : (s.pushByte v).out = s.out := rfl
@[simp] theorem State.pushByte_reg (q : Reg) :
    (s.pushByte v).reg q = if q = Config.spIndex then s.sp - 1 else s.reg q := s.reg_decSp q
@[simp] theorem State.pushByte_sp : (s.pushByte v).sp = s.sp - 1 := s.sp_decSp

end

/-! ### The effect of an instruction -/

/-- What each instruction with valid operands makes of a state (R76, R90 to R135). -/
inductive Effect (s : State) : Instr → State → Prop
  | hlt : Effect s .hlt (s.advance 1).halt
  | ldi {r v : Byte} (hr : r.toNat < 8) :
      Effect s (.ldi r v) ((s.setReg ⟨r.toNat, hr⟩ v).advance 3)
  | prn {r : Byte} (hr : r.toNat < 8) :
      Effect s (.prn r) ((s.emit (s.reg ⟨r.toNat, hr⟩)).advance 2)
  | mul {a b : Byte} (ha : a.toNat < 8) (hb : b.toNat < 8) :
      Effect s (.mul a b) ((s.setReg ⟨a.toNat, ha⟩
        (mulByte (s.reg ⟨a.toNat, ha⟩) (s.reg ⟨b.toNat, hb⟩))).advance 3)
  | push {r : Byte} (hr : r.toNat < 8) :
      Effect s (.push r) ((s.pushByte (s.decSp.reg ⟨r.toNat, hr⟩)).advance 2)
  | pop {r : Byte} (hr : r.toNat < 8) :
      Effect s (.pop r) (((s.setReg ⟨r.toNat, hr⟩ (s.mem.read s.sp.toNat)).incSp).advance 2)
  | call {r : Byte} (hr : r.toNat < 8) :
      Effect s (.call r) ((s.pushByte (returnAddress s)).jumpTo (s.decSp.reg ⟨r.toNat, hr⟩))
  | ret : Effect s .ret (s.incSp.jumpTo (s.mem.read s.sp.toNat))
  | cmp {a b : Byte} (ha : a.toNat < 8) (hb : b.toNat < 8) :
      Effect s (.cmp a b) ((s.setFlags
        (compareFlags (s.reg ⟨a.toNat, ha⟩) (s.reg ⟨b.toNat, hb⟩))).advance 3)
  | jmp {r : Byte} (hr : r.toNat < 8) : Effect s (.jmp r) (s.jumpTo (s.reg ⟨r.toNat, hr⟩))
  | jeqTaken {r : Byte} (hr : r.toNat < 8) (he : s.flags.equal = true) :
      Effect s (.jeq r) (s.jumpTo (s.reg ⟨r.toNat, hr⟩))
  | jeqNotTaken {r : Byte} (hr : r.toNat < 8) (he : s.flags.equal = false) :
      Effect s (.jeq r) (s.advance 2)
  | jneTaken {r : Byte} (hr : r.toNat < 8) (he : s.flags.equal = false) :
      Effect s (.jne r) (s.jumpTo (s.reg ⟨r.toNat, hr⟩))
  | jneNotTaken {r : Byte} (hr : r.toNat < 8) (he : s.flags.equal = true) :
      Effect s (.jne r) (s.advance 2)

/-- Which operand faults, and with what: the first before the second (R52, R177; D4). -/
inductive OperandFault (i : Instr) : FaultInfo → Prop
  | first {a : Byte} (h : i.firstReg? = some a) (ha : 8 ≤ a.toNat) :
      OperandFault i (.registerOutOfBounds a .first)
  | second {a b : Byte} (h : i.firstReg? = some a) (ha : a.toNat < 8)
      (h' : i.secondReg? = some b) (hb : 8 ≤ b.toNat) :
      OperandFault i (.registerOutOfBounds b .second)

variable {i : Instr} {s t : State} {e : FaultInfo}

/-- An instruction with an effect executes to it. -/
theorem Effect.exec_eq (h : Effect s i t) : exec i s = .next t := by
  cases h with
  | hlt => rw [exec, execHlt_eq]
  | ldi hr => rw [exec, execLdi_eq, regIndex_of_lt hr]
  | prn hr => rw [exec, execPrn_eq, regIndex_of_lt hr]
  | mul ha hb => rw [exec, execMul_eq, regIndexPair_of_lt ha hb]
  | push hr => rw [exec, execPush_eq, regIndex_of_lt hr]; rfl
  | pop hr => rw [exec, execPop_eq, regIndex_of_lt hr]
  | call hr => rw [exec, execCall_eq, regIndex_of_lt hr]; rfl
  | ret => rw [exec, execRet_eq]
  | cmp ha hb => exact exec_cmp_of_lt ha hb
  | jmp hr => rw [exec, execJmp_eq, regIndex_of_lt hr]
  | jeqTaken hr he => rw [exec_jeq_of_lt hr, if_pos he]
  | jeqNotTaken hr he => rw [exec_jeq_of_lt hr, he]; rfl
  | jneTaken hr he => rw [exec_jne_of_lt hr, he]; rfl
  | jneNotTaken hr he => rw [exec_jne_of_lt hr, if_pos he]

/-- A first register operand above 7 faults, whatever the second (R52; D4). -/
theorem exec_of_firstReg_ge {a : Byte} (h : i.firstReg? = some a) (ha : 8 ≤ a.toNat) (s : State) :
    exec i s = .next (s.raise (.registerOutOfBounds a .first)) := by
  cases i with
  | hlt => cases h
  | ret => cases h
  | ldi r v => cases h; rw [exec, execLdi_eq, regIndex_of_ge ha]
  | prn r => cases h; rw [exec, execPrn_eq, regIndex_of_ge ha]
  | mul x y => cases h; rw [exec, execMul_eq, regIndexPair_of_ge_first ha]
  | push r => cases h; rw [exec, execPush_eq, regIndex_of_ge ha]
  | pop r => cases h; rw [exec, execPop_eq, regIndex_of_ge ha]
  | call r => cases h; rw [exec, execCall_eq, regIndex_of_ge ha]
  | cmp x y => cases h; rw [exec, execCmp_eq, regIndexPair_of_ge_first ha]
  | jmp r => cases h; rw [exec, execJmp_eq, regIndex_of_ge ha]
  | jeq r => cases h; rw [exec, execJeq_eq, regIndex_of_ge ha]
  | jne r => cases h; rw [exec, execJne_eq, regIndex_of_ge ha]

/-- A second register operand above 7 faults after a valid first (R52; D4). -/
theorem exec_of_secondReg_ge {a b : Byte} (h : i.firstReg? = some a) (ha : a.toNat < 8)
    (h' : i.secondReg? = some b) (hb : 8 ≤ b.toNat) (s : State) :
    exec i s = .next (s.raise (.registerOutOfBounds b .second)) := by
  cases i with
  | mul x y => cases h; cases h'; rw [exec, execMul_eq, regIndexPair_of_ge_second ha hb]
  | cmp x y => cases h; cases h'; rw [exec, execCmp_eq, regIndexPair_of_ge_second ha hb]
  | _ => cases h'

/-- An instruction with an operand fault executes to fault entry. -/
theorem OperandFault.exec_eq (h : OperandFault i e) (s : State) :
    exec i s = .next (s.raise e) := by
  cases h with
  | first h ha => exact exec_of_firstReg_ge h ha s
  | second h ha h' hb => exact exec_of_secondReg_ge h ha h' hb s

/-- A well-formed instruction has an effect on every state. -/
theorem Effect.exists_of_wellFormed (h : i.wellFormed = true) (s : State) : ∃ t, Effect s i t := by
  rw [Instr.wellFormed_iff] at h
  obtain ⟨h1, h2⟩ := h
  cases i with
  | hlt => exact ⟨_, .hlt⟩
  | ret => exact ⟨_, .ret⟩
  | ldi r v => exact ⟨_, .ldi (h1 r rfl)⟩
  | prn r => exact ⟨_, .prn (h1 r rfl)⟩
  | mul a b => exact ⟨_, .mul (h1 a rfl) (h2 b rfl)⟩
  | push r => exact ⟨_, .push (h1 r rfl)⟩
  | pop r => exact ⟨_, .pop (h1 r rfl)⟩
  | call r => exact ⟨_, .call (h1 r rfl)⟩
  | cmp a b => exact ⟨_, .cmp (h1 a rfl) (h2 b rfl)⟩
  | jmp r => exact ⟨_, .jmp (h1 r rfl)⟩
  | jeq r =>
    cases he : s.flags.equal with
    | true => exact ⟨_, .jeqTaken (h1 r rfl) he⟩
    | false => exact ⟨_, .jeqNotTaken (h1 r rfl) he⟩
  | jne r =>
    cases he : s.flags.equal with
    | true => exact ⟨_, .jneNotTaken (h1 r rfl) he⟩
    | false => exact ⟨_, .jneTaken (h1 r rfl) he⟩

/-- An ill-formed instruction has an operand fault. -/
theorem OperandFault.exists_of_not_wellFormed (h : ¬ i.wellFormed = true) :
    ∃ e, OperandFault i e := by
  rw [Instr.wellFormed_iff] at h
  by_cases h1 : ∀ a ∈ i.firstReg?, a.toNat < 8
  · have h2 : ¬ ∀ b ∈ i.secondReg?, b.toNat < 8 := fun h2 => h ⟨h1, h2⟩
    push Not at h2
    obtain ⟨b, hb, hb8⟩ := h2
    obtain ⟨a, ha⟩ := Instr.firstReg?_of_secondReg? hb
    exact ⟨_, .second ha (h1 a ha) hb hb8⟩
  · push Not at h1
    obtain ⟨a, ha, ha8⟩ := h1
    exact ⟨_, .first ha ha8⟩

/-- The operands decide between the effect and the fault. -/
theorem effect_or_operandFault (i : Instr) (s : State) :
    (∃ t, Effect s i t) ∨ ∃ e, OperandFault i e := by
  by_cases hwf : i.wellFormed = true
  · exact .inl (Effect.exists_of_wellFormed hwf s)
  · exact .inr (OperandFault.exists_of_not_wellFormed hwf)

/-- Everything an execution can be: the effect, or fault entry for an operand. -/
theorem exec_next_cases (h : exec i s = .next t) :
    Effect s i t ∨ ∃ e, OperandFault i e ∧ t = s.raise e := by
  rcases effect_or_operandFault i s with ⟨u, hu⟩ | ⟨e, he⟩
  · rw [hu.exec_eq] at h
    cases h
    exact .inl hu
  · rw [he.exec_eq] at h
    cases h
    exact .inr ⟨e, he, rfl⟩

/-- No instruction stops the model. -/
theorem exec_answers (i : Instr) (s : State) : ∃ t, exec i s = .next t := by
  rcases effect_or_operandFault i s with ⟨t, ht⟩ | ⟨e, he⟩
  · exact ⟨t, ht.exec_eq⟩
  · exact ⟨_, he.exec_eq s⟩

theorem OperandFault.not_wellFormed (h : OperandFault i e) : ¬ i.wellFormed = true := by
  rw [Instr.wellFormed_iff]
  rintro ⟨h1, h2⟩
  cases h with
  | first h ha => exact absurd (h1 _ h) (Nat.not_lt.2 ha)
  | second _ _ h' hb => exact absurd (h2 _ h') (Nat.not_lt.2 hb)

/-- An operand fault is about a byte above 7. -/
theorem OperandFault.eq_registerOutOfBounds (h : OperandFault i e) :
    ∃ b slot, e = .registerOutOfBounds b slot ∧ 8 ≤ b.toNat := by
  cases h with
  | first _ ha => exact ⟨_, _, rfl, ha⟩
  | second _ _ _ hb => exact ⟨_, _, rfl, hb⟩

/-! ### What an effect leaves unchanged -/

/-- Only HLT writes the status (R76). -/
theorem Effect.status_eq (h : Effect s i t) : t.status = if i = .hlt then .halted else s.status := by
  cases h <;> rfl

/-- No effect writes the fault record (R16). -/
theorem Effect.fault_eq (h : Effect s i t) : t.fault = s.fault := by
  cases h <;> rfl

/-- Only PRN emits, and one value (R18, R91). -/
theorem Effect.out_cases (h : Effect s i t) :
    t.out = s.out ∨ ∃ (r : Byte) (hr : r.toNat < 8), i = .prn r ∧
      t.out = s.out ++ [s.reg ⟨r.toNat, hr⟩] := by
  cases h with
  | prn hr => exact .inr ⟨_, hr, rfl, rfl⟩
  | _ => exact .inl rfl

/-- Only PUSH and CALL write memory, and one byte at the lowered SP (R14, R120). -/
theorem Effect.mem_cases (h : Effect s i t) :
    t.mem = s.mem ∨ (∃ r, i = .push r ∨ i = .call r) ∧
      ∃ v, t.mem = s.mem.write (s.sp - 1).toNat v := by
  cases h with
  | push hr => exact .inr ⟨⟨_, .inl rfl⟩, _, rfl⟩
  | call hr => exact .inr ⟨⟨_, .inr rfl⟩, _, rfl⟩
  | _ => exact .inl rfl

/-- The flags are as before, or those of a comparison, one of them set (R13, R102). -/
theorem Effect.flags_cases (h : Effect s i t) :
    t.flags = s.flags ∨ t.flags.count = 1 := by
  cases h with
  | cmp ha hb => exact .inr (compareFlags_count _ _)
  | _ => exact .inl rfl

end Sys2Proof.Machine
end

section
/-! PROOFS. The step (spec/40_engine_cycle.md R71 to R77, spec/60_exceptions.md R171 to R177): which
instruction it executes, where it faults, what it keeps. -/

namespace Sys2Proof

open Statements

/-- A row with operands builds an instruction whose first operand is a register (R54). -/
theorem firstReg?_build_of_mem (opa opb : Byte) :
    ∀ row ∈ dispatchTable, row.format ≠ .op → (row.op.build opa opb).firstReg? = some opa := by
  simp [dispatchTable, Opcode.build, Instr.firstReg?]

/-- So is the second of a row with two registers (R54). -/
theorem secondReg?_build_of_mem (opa opb : Byte) :
    ∀ row ∈ dispatchTable, row.format = .opRR → (row.op.build opa opb).secondReg? = some opb := by
  simp [dispatchTable, Opcode.build, Instr.secondReg?]

/-- The ten opcodes with a register operand decode to an instruction with that operand. -/
theorem decode_of_mem_oneRegisterOpcodes {ir : Byte} (h : ir ∈ oneRegisterOpcodes) (opa opb : Byte) :
    ∃ i, decode ir opa opb = .ok i ∧ i.firstReg? = some opa := by
  have hrow : ∀ b ∈ oneRegisterOpcodes, ∃ row ∈ dispatchTable, b = row.byte ∧ row.format ≠ .op := by
    decide
  obtain ⟨row, hmem, hbyte, hformat⟩ := hrow ir h
  exact ⟨_, decode_eq_ok_iff.2 ⟨row, hmem, hbyte, rfl⟩, firstReg?_build_of_mem _ _ row hmem hformat⟩

/-- MUL and CMP decode to an instruction with two register operands. -/
theorem decode_of_mem_twoRegisterOpcodes {ir : Byte} (h : ir ∈ twoRegisterOpcodes) (opa opb : Byte) :
    ∃ i, decode ir opa opb = .ok i ∧ i.firstReg? = some opa ∧ i.secondReg? = some opb := by
  have hrow : ∀ b ∈ twoRegisterOpcodes, ∃ row ∈ dispatchTable, b = row.byte ∧ row.format = .opRR := by
    decide
  obtain ⟨row, hmem, hbyte, hformat⟩ := hrow ir h
  exact ⟨_, decode_eq_ok_iff.2 ⟨row, hmem, hbyte, rfl⟩,
    firstReg?_build_of_mem _ _ row hmem (by simp [hformat]),
    secondReg?_build_of_mem _ _ row hmem hformat⟩

end Sys2Proof

namespace Sys2Proof.Machine

open Statements

variable {i : Instr} {s t : State} {e : FaultInfo}

/-! ### What a step does -/

/-- A running machine executes the instruction it fetches (R71). -/
theorem step_of_fetchInstr_ok (hs : s.status = .running) (h : fetchInstr s = .ok i) :
    step s = exec i s := by
  simp only [step, hs, engineStep, h]

/-- A running machine whose fetch fails enters the fault (R71, R175). -/
theorem step_of_fetchInstr_error (hs : s.status = .running) (h : fetchInstr s = .error e) :
    step s = .next (s.raise e) := by
  simp only [step, hs, engineStep, h, commit_error]

/-- A running machine takes a step (R71). -/
theorem step_answers (hs : s.status = .running) : ∃ t, step s = .next t := by
  cases h : fetchInstr s with
  | error e => exact ⟨_, step_of_fetchInstr_error hs h⟩
  | ok i => exact step_of_fetchInstr_ok hs h ▸ exec_answers i s

theorem step_of_ready (hs : s.status = .ready) : step s = .next s.setRunning :=
  step_of_startRun (startRun_eq_some.2 ⟨hs, rfl⟩)

theorem step_of_halted (hs : s.status = .halted) : step s = .fault .halted := by
  simp only [step, hs]

theorem step_of_faulted (hs : s.status = .faulted) : step s = .fault .faulted := by
  simp only [step, hs]

/-- A run of one or more steps from a halted machine takes no step (R77). -/
theorem run_of_halted (hs : s.status = .halted) (k : Nat) : run (k + 1) s = .fault .halted := by
  rw [run_succ, step_of_halted hs]

/-- Nor does one from a faulted machine (R178). -/
theorem run_of_faulted (hs : s.status = .faulted) (k : Nat) : run (k + 1) s = .fault .faulted := by
  rw [run_succ, step_of_faulted hs]

/-- Above 253 the fetch meets an address that does not exist (R72). -/
theorem fetchInstr_of_gt (hpc : 253 < s.pc.toNat) :
    fetchInstr s = .error (.memoryOutOfBounds (max s.pc.toNat 256)) := by
  cases h : fetchInstr s with
  | ok i => exact absurd (fetchInstr_eq_ok h).1 (Nat.not_le.2 hpc)
  | error e =>
    obtain ⟨_, rfl⟩ | ⟨hle, _⟩ := fetchInstr_eq_error h
    · rfl
    · exact absurd hle (Nat.not_le.2 hpc)

/-- An opcode byte that is none of the twelve is named with its address (R171). -/
theorem fetchInstr_of_unknown (hpc : s.pc.toNat ≤ 253)
    (hbyte : s.mem.read s.pc.toNat ∉ knownOpcodes) :
    fetchInstr s = .error (.unknownOpcode (s.mem.read s.pc.toNat) s.pc.toNat) := by
  have hrow := dispatchRow_eq_none_iff.2 hbyte
  cases h : fetchInstr s with
  | ok i =>
    obtain ⟨row, hsome, _⟩ := decode_eq_ok (fetchInstr_eq_ok h).2
    rw [hrow] at hsome
    cases hsome
  | error e =>
    obtain ⟨hgt, _⟩ | ⟨_, _, rfl⟩ := fetchInstr_eq_error h
    · exact absurd hpc (Nat.not_le.2 hgt)
    · rfl

/-- The fault a running machine's next step raises: in the fetch, or for an operand (R177). -/
inductive StepFault (s : State) (e : FaultInfo) : Prop
  | fetch (h : fetchInstr s = .error e)
  | operand {i : Instr} (h : fetchInstr s = .ok i) (hi : OperandFault i e)

theorem StepFault.step_eq (h : StepFault s e) (hs : s.status = .running) :
    step s = .next (s.raise e) := by
  cases h with
  | fetch h => exact step_of_fetchInstr_error hs h
  | operand h hi => rw [step_of_fetchInstr_ok hs h, hi.exec_eq]

/-- Everything a step can be: the run start, fault entry, or the effect of the instruction at pc. -/
theorem step_cases (h : step s = .next t) :
    (s.status = .ready ∧ t = s.setRunning) ∨
      (s.status = .running ∧ ∃ e, StepFault s e ∧ t = s.raise e) ∨
      (s.status = .running ∧ ∃ i, fetchInstr s = .ok i ∧ Effect s i t) := by
  obtain hready | ⟨hs, e, he, ht⟩ | ⟨hs, i, hi, hexec⟩ := step_next_cases h
  · exact .inl hready
  · exact .inr (.inl ⟨hs, e, .fetch he, ht⟩)
  · obtain heff | ⟨e, he, ht⟩ := exec_next_cases hexec
    · exact .inr (.inr ⟨hs, i, hi, heff⟩)
    · exact .inr (.inl ⟨hs, e, .operand hi he, ht⟩)

/-- The situations of R171 and R172 and no other, from every pc that a machine can have. -/
theorem StepFault.possible (h : StepFault s e) (hpc : s.pc.toNat ≤ 256) :
    FaultRecord.Possible ⟨e, s.pc⟩ := by
  cases h with
  | fetch h =>
    obtain ⟨hgt, rfl⟩ | ⟨hle, hrow, rfl⟩ := fetchInstr_eq_error h
    · exact ⟨max_eq_right hpc, hgt, hpc⟩
    · exact ⟨hrow, rfl, hle⟩
  | operand h hi =>
    obtain ⟨b, slot, rfl, hb⟩ := hi.eq_registerOutOfBounds
    exact ⟨hb, (fetchInstr_eq_ok h).1⟩

/-- A step's fault is one of the two kinds that the block raises (R170, R173). -/
theorem StepFault.kind_cases (h : StepFault s e) :
    e.kind = .unknownOpcode ∨ e.kind = .outOfBounds := by
  cases h with
  | fetch h =>
    obtain ⟨_, rfl⟩ | ⟨_, _, rfl⟩ := fetchInstr_eq_error h
    · exact .inr rfl
    · exact .inl rfl
  | operand _ hi =>
    obtain ⟨b, slot, rfl, _⟩ := hi.eq_registerOutOfBounds
    exact .inr rfl

/-- A well-formed instruction's step is its effect. -/
theorem effect_of_step (hs : s.status = .running) (hi : fetchInstr s = .ok i)
    (hwf : i.wellFormed = true) (h : step s = .next t) : Effect s i t := by
  rw [step_of_fetchInstr_ok hs hi] at h
  obtain heff | ⟨e, he, _⟩ := exec_next_cases h
  · exact heff
  · exact absurd hwf he.not_wellFormed

/-- The instruction at pc can run exactly when it is fetched and well formed. -/
theorem nextIsSound_iff : s.NextIsSound ↔ ∃ i, fetchInstr s = .ok i ∧ i.wellFormed = true := by
  unfold State.NextIsSound
  cases fetchInstr s <;> simp

/-- An effect needs valid operands. -/
theorem Effect.wellFormed (h : Effect s i t) : i.wellFormed = true := by
  rw [Instr.wellFormed_iff]
  cases h <;> simp_all [Instr.firstReg?, Instr.secondReg?]

/-- HLT is the one effect that ends a run (R76). -/
theorem Effect.eq_hlt (h : Effect s i t) (hs : s.status = .running) (ht : t.status ≠ .running) :
    i = .hlt := by
  by_contra hne
  rw [h.status_eq, if_neg hne] at ht
  exact ht hs

/-- A running machine's effect leaves it running, or halted by HLT (R76). -/
theorem Effect.not_faulted (h : Effect s i t) (hs : s.status = .running) : t.status ≠ .faulted := by
  rw [h.status_eq, hs]
  split <;> simp

/-! ### The exit status -/

theorem exitStatus_of_halted (hs : s.status = .halted) : exitStatus s = some 0 := by
  simp only [exitStatus, hs]

theorem exitStatus_of_faulted (hs : s.status = .faulted) : ∃ n, exitStatus s = some n ∧ n ≠ 0 := by
  simp only [exitStatus, hs]
  exact ⟨_, rfl, by decide⟩

theorem exitStatus_before_end (hs : s.status = .running ∨ s.status = .ready) :
    exitStatus s = none := by
  obtain hs | hs := hs <;> simp only [exitStatus, hs]

/-! ### The program counter -/

/-- Nine bits hold the sum wherever an instruction executes (R12, R75). -/
theorem toNat_add_length {p : PcWord} (hp : p.toNat ≤ 253) {n : Nat} (hn : n ≤ 3) :
    (p + BitVec.ofNat 9 n).toNat = p.toNat + n := by
  rw [BitVec.toNat_add, BitVec.toNat_ofNat]
  omega

/-- pc moves on by the length, or a taken transfer sets it to a byte (R75). -/
theorem Effect.pc_cases (h : Effect s i t) :
    (¬ transfersControl i s ∧ t.pc = s.pc + BitVec.ofNat 9 i.length) ∨
      (transfersControl i s ∧ i = .ret ∧ t.pc = zext9 (s.mem.read s.sp.toNat)) ∨
      (transfersControl i s ∧ ∃ (q : Reg) (r : Byte), r.toNat = q.val ∧ t.pc = zext9 (t.reg q) ∧
        (i = .call r ∨ i = .jmp r ∨ i = .jeq r ∨ i = .jne r)) := by
  cases h with
  | ret => exact .inr (.inl ⟨.inl rfl, rfl, rfl⟩)
  | call hr => exact .inr (.inr ⟨by simp [transfersControl], _, _, rfl, rfl, by simp⟩)
  | jmp hr => exact .inr (.inr ⟨by simp [transfersControl], _, _, rfl, rfl, by simp⟩)
  | jeqTaken hr he => exact .inr (.inr ⟨by simp [transfersControl, he], _, _, rfl, rfl, by simp⟩)
  | jneTaken hr he => exact .inr (.inr ⟨by simp [transfersControl, he], _, _, rfl, rfl, by simp⟩)
  | _ => exact .inl ⟨by simp [transfersControl, *], rfl⟩

theorem zext9_toNat_le (v : Byte) : (zext9 v).toNat ≤ 256 := by
  rw [zext9_toNat]
  exact v.isLt.le

/-- From where instructions execute, pc stays within its range (R22). -/
theorem Effect.pc_le (h : Effect s i t) (hpc : s.pc.toNat ≤ 253) : t.pc.toNat ≤ 256 := by
  obtain ⟨_, ht⟩ | ⟨_, _, ht⟩ | ⟨_, q, r, _, ht, _⟩ := h.pc_cases
  · have := Instr.length_le_three i
    rw [ht, toNat_add_length hpc this]
    omega
  · exact ht ▸ zext9_toNat_le _
  · exact ht ▸ zext9_toNat_le _

/-! ### The invariants -/

/-- An effect keeps the state invariant wherever instructions execute (R22). -/
theorem Effect.keeps_inv (h : Effect s i t) (hpc : s.pc.toNat ≤ 253) (hinv : s.Inv) : t.Inv := by
  obtain ⟨hwf, _, hflags⟩ := hinv
  refine ⟨?_, h.pc_le hpc, ?_⟩
  · obtain hm | ⟨_, v, hm⟩ := h.mem_cases
    · exact hm ▸ hwf
    · exact hm ▸ Memory.wf_write hwf (byte_lt_memCells _) v
  · obtain hf | hf := h.flags_cases
    · exact hf ▸ hflags
    · exact hf.le

/-- A sound record is absent unless the run has faulted (R16). -/
theorem State.FaultSound.fault_eq_none (h : s.FaultSound) (hs : s.status ≠ .faulted) :
    s.fault = none := by
  rw [← Option.not_isSome_iff_eq_none]
  exact fun hsome => hs (h.1.1 hsome)

/-- No record is sound where the run has not faulted. -/
theorem faultSound_of_fault_eq_none (h : s.fault = none) (hs : s.status ≠ .faulted) :
    s.FaultSound := by
  simp [State.FaultSound, h, hs]

/-- Fault entry writes a sound record when the fault is a possible one (R175). -/
theorem faultSound_raise (h : FaultRecord.Possible ⟨e, s.pc⟩) : (s.raise e).FaultSound :=
  ⟨by simp, fun f hf => by cases hf; exact ⟨h, rfl⟩⟩

end Sys2Proof.Machine

namespace Sys2Proof

open Machine Statements

/-- Settles O40: the run start and fault entry keep the three parts, and so does each effect. -/
theorem stepKeepsStateInvariant : Obligations.StepKeepsStateInvariant := by
  intro s t hinv h
  obtain ⟨_, rfl⟩ | ⟨_, e, _, rfl⟩ | ⟨_, i, hi, heff⟩ := step_cases h
  · exact hinv
  · exact hinv
  · exact heff.keeps_inv (fetchInstr_eq_ok hi).1 hinv

/-- Settles O41: only fault entry writes a record, and it writes a possible one. -/
theorem stepKeepsFaultRecordSound : Obligations.StepKeepsFaultRecordSound := by
  intro s t hinv hsound h
  obtain ⟨hs, rfl⟩ | ⟨_, e, he, rfl⟩ | ⟨hs, i, _, heff⟩ := step_cases h
  · exact faultSound_of_fault_eq_none (hsound.fault_eq_none (by simp [hs])) (by simp)
  · exact faultSound_raise (he.possible hinv.2.1)
  · refine faultSound_of_fault_eq_none ?_ (heff.not_faulted hs)
    rw [heff.fault_eq]
    exact hsound.fault_eq_none (by simp [hs])

/-- Settles O22: the three bytes at pc are what the fetch decodes. -/
theorem stepRunsDecodedInstruction : Obligations.StepRunsDecodedInstruction :=
  fun _ _ hs hpc h => step_of_fetchInstr_ok hs (fetchInstr_of_decode hpc h)

/-- Settles O23: an encoding in memory is the beginning of the three fetched bytes. -/
theorem encodedInstructionInMemoryRuns : Obligations.EncodedInstructionInMemoryRuns := by
  intro s i hs hpc hbytes
  have hprefix : encode i <+: [s.mem.read s.pc.toNat, s.mem.read (s.pc.toNat + 1),
      s.mem.read (s.pc.toNat + 2)] := by
    refine List.prefix_iff_getElem.2 ⟨by simpa using Instr.length_le_three i, fun k hk => ?_⟩
    rw [← hbytes k hk]
    have hlen := Instr.length_le_three i
    rw [encode_length] at hk
    match k, hk with
    | 0, _ => rfl
    | 1, _ => rfl
    | 2, _ => rfl
    | k + 3, hk => omega
  exact step_of_fetchInstr_ok hs (fetchInstr_of_decode hpc (decode_of_encode_prefix hprefix))

/-- Settles O24: the fetch faults at the first address that does not exist. -/
theorem fetchFaultsAboveAddress253 : Obligations.FetchFaultsAboveAddress253 := by
  intro s hs hge hle
  have hfetch := fetchInstr_of_gt (s := s) (by omega)
  rw [max_eq_right hle] at hfetch
  exact step_of_fetchInstr_error hs hfetch

/-- Settles O25: the fetch names the byte, and a faulted machine takes no step. -/
theorem unknownOpcodeIsFatal : Obligations.UnknownOpcodeIsFatal := fun _ hs hpc hbyte =>
  ⟨_, step_of_fetchInstr_error hs (fetchInstr_of_unknown hpc hbyte), rfl,
    exitStatus_of_faulted rfl, run_of_faulted rfl⟩

/-- Settles O26: the fetch comes first, then the opcode, then the operands in their order. -/
theorem faultDetectionOrder : Obligations.FaultDetectionOrder := by
  intro s hs hle
  refine ⟨fun hpc => fetchFaultsAboveAddress253 s hs hpc hle,
    fun hpc hbyte => step_of_fetchInstr_error hs (fetchInstr_of_unknown hpc hbyte),
    fun hpc hbyte ha => ?_, fun hpc hbyte ha hb => ?_⟩
  · obtain ⟨i, hdec, hfirst⟩ := decode_of_mem_oneRegisterOpcodes hbyte
      (s.mem.read (s.pc.toNat + 1)) (s.mem.read (s.pc.toNat + 2))
    exact StepFault.step_eq (.operand (fetchInstr_of_decode hpc hdec) (.first hfirst ha)) hs
  · obtain ⟨i, hdec, hfirst, hsecond⟩ := decode_of_mem_twoRegisterOpcodes hbyte
      (s.mem.read (s.pc.toNat + 1)) (s.mem.read (s.pc.toNat + 2))
    exact StepFault.step_eq
      (.operand (fetchInstr_of_decode hpc hdec) (.second hfirst ha hsecond hb)) hs

/-- Settles O27: a sound instruction has its effect, which is no fault, and every effect is of a
well-formed instruction. -/
theorem stepIsSafeExactlyOnSoundInstructions :
    Obligations.StepIsSafeExactlyOnSoundInstructions := by
  intro s hs
  rw [nextIsSound_iff]
  constructor
  · rintro ⟨i, hi, hwf⟩
    obtain ⟨t, heff⟩ := Effect.exists_of_wellFormed hwf s
    exact ⟨t, (step_of_fetchInstr_ok hs hi).trans heff.exec_eq, heff.not_faulted hs⟩
  · rintro ⟨t, hstep, hsafe⟩
    obtain ⟨hready, _⟩ | ⟨_, e, _, rfl⟩ | ⟨_, i, hi, heff⟩ := step_cases hstep
    · simp [hs] at hready
    · exact absurd rfl hsafe
    · exact ⟨i, hi, heff.wellFormed⟩

/-- Settles O28: a step that answers a faulted state is fault entry. -/
theorem faultingStepCommitsNothing : Obligations.FaultingStepCommitsNothing := by
  intro s t hs h hfaulted
  refine ⟨?_, exitStatus_of_faulted hfaulted⟩
  obtain ⟨hready, _⟩ | ⟨_, e, he, rfl⟩ | ⟨_, i, _, heff⟩ := step_cases h
  · simp [hs] at hready
  · refine ⟨e, rfl, ?_⟩
    obtain hk | hk := he.kind_cases <;> simp [hk]
  · exact absurd hfaulted (heff.not_faulted hs)

/-- Settles O29: a fetch that fails enters the fault, and every instruction executes to a state. -/
theorem runningMachineAlwaysSteps : Obligations.RunningMachineAlwaysSteps :=
  ⟨fun _ => step_answers, exec_answers⟩

/-- Settles O30: of the steps that end a run, fault entry and HLT, neither writes data. -/
theorem runEndsByHltOrFault : Obligations.RunEndsByHltOrFault := by
  refine ⟨fun s t hs h hend => ?_, fun s k hs => run_of_halted hs k,
    fun s k hs => run_of_faulted hs k⟩
  obtain ⟨hready, _⟩ | ⟨_, e, _, rfl⟩ | ⟨_, i, hi, heff⟩ := step_cases h
  · simp [hs] at hready
  · exact ⟨.inr rfl, rfl, rfl, rfl⟩
  · obtain rfl := heff.eq_hlt hs hend
    cases heff
    exact ⟨.inl ⟨rfl, hi⟩, rfl, rfl, rfl⟩

/-- Settles O31: where pc goes, read as a number. -/
theorem pcAdvancesByLengthOrJumps : Obligations.PcAdvancesByLengthOrJumps := by
  intro s t i hs hi hwf hstep
  have hpc := (fetchInstr_eq_ok hi).1
  have heff := effect_of_step hs hi hwf hstep
  refine ⟨heff.pc_le hpc, ?_⟩
  obtain ⟨hno, ht⟩ | ⟨htr, hret, ht⟩ | ⟨htr, q, r, hq, ht, hor⟩ := heff.pc_cases
  · refine ⟨fun _ => ?_, fun htr => absurd htr hno⟩
    rw [ht, toNat_add_length hpc (Instr.length_le_three i)]
  · refine ⟨fun hno => absurd htr hno, fun _ => .inl ⟨hret, ?_⟩⟩
    rw [ht, zext9_toNat]
    rfl
  · refine ⟨fun hno => absurd htr hno, fun _ => .inr ⟨q, r, hq, ?_, hor⟩⟩
    rw [ht, zext9_toNat]
    rfl

/-- Settles O34: only CMP writes flags, and it leaves exactly one set. -/
theorem exactlyOneFlagFromFirstCompare : Obligations.ExactlyOneFlagFromFirstCompare := by
  refine ⟨fun s t h hone => ?_, fun s t a b hs hi h hrun => ?_⟩
  · obtain ⟨_, rfl⟩ | ⟨_, e, _, rfl⟩ | ⟨_, i, _, heff⟩ := step_cases h
    · exact hone
    · exact hone
    · obtain hf | hf := heff.flags_cases
      · rw [hf, hone]
      · exact hf
  · rw [step_of_fetchInstr_ok hs hi] at h
    obtain heff | ⟨e, _, rfl⟩ := exec_next_cases h
    · cases heff
      exact compareFlags_count _ _
    · cases hrun

/-- Settles O35: of the effects, PRN's alone appends. -/
theorem onlyPrnAppendsOutput : Obligations.OnlyPrnAppendsOutput := by
  intro s t h
  obtain ⟨_, rfl⟩ | ⟨_, e, _, rfl⟩ | ⟨hs, i, hi, heff⟩ := step_cases h
  · exact .inl rfl
  · exact .inl rfl
  · obtain hout | ⟨r, hr, rfl, hout⟩ := heff.out_cases
    · exact .inl hout
    · exact .inr ⟨r, hr, hs, hi, hout⟩

/-- One step appends at most one value to the output (R18). -/
theorem step_out_grows {s t : State} (h : step s = .next t) :
    s.out <+: t.out ∧ t.out.length ≤ s.out.length + 1 := by
  obtain hout | ⟨r, hr, _, _, hout⟩ := onlyPrnAppendsOutput s t h
  · simp [hout]
  · simp [hout]

/-- Settles O36, by induction on the number of steps. -/
theorem outputOnlyGrowsAlongRuns : Obligations.OutputOnlyGrowsAlongRuns := by
  intro k
  induction k with
  | zero =>
    intro s t h
    cases h
    simp
  | succ k ih =>
    intro s t h
    rw [run_succ] at h
    split at h
    · rename_i u hu
      obtain ⟨hpre, hlen⟩ := step_out_grows hu
      obtain ⟨hpre', hlen'⟩ := ih u t h
      exact ⟨hpre.trans hpre', by omega⟩
    · cases h
    · cases h

/-- Settles O1: HLT's effect, and a step that answers a halted state is that effect. -/
theorem hltHaltsAndAdvances : Obligations.HltHaltsAndAdvances := by
  refine ⟨fun _ _ => rfl, fun s => execHlt_eq s, fun s hs => exitStatus_of_halted hs,
    fun s t h hhalt => ?_⟩
  obtain ⟨_, rfl⟩ | ⟨_, e, _, rfl⟩ | ⟨hs, i, hi, heff⟩ := step_cases h
  · cases hhalt
  · cases hhalt
  · obtain rfl := heff.eq_hlt hs (by simp [hhalt])
    have hpc := (fetchInstr_eq_ok hi).1
    cases heff
    have hadd : (s.advance 1).halt.pc.toNat = s.pc.toNat + 1 := toNat_add_length hpc (by decide)
    exact ⟨hs, hi, hadd, by omega⟩

/-- Settles O48: the status selects the exit status, and a sound record is there after a fault. -/
theorem exitStatusAndFaultReport : Obligations.ExitStatusAndFaultReport := by
  refine fun s => ⟨exitStatus_of_halted, exitStatus_of_faulted, exitStatus_before_end,
    fun ⟨hiff, hrecord⟩ hs => ?_⟩
  obtain ⟨f, hf⟩ := Option.isSome_iff_exists.1 (hiff.2 hs)
  exact ⟨f, by rw [faultReport, if_pos hs, hf], hf, (hrecord f hf).2⟩

end Sys2Proof
end

section
/-! PROOFS. The twelve instructions (spec/41 to 44): each effect with its frame and its exceptions,
and the instructions in sequence. -/

namespace Sys2Proof.Machine

open Statements

variable {i : Instr} {s t : State} {r : Byte}

/-! ### The stack instructions, byte by byte and register by register -/

/-- The register that PUSH and CALL read after SP is lowered (R121, R130; D9). -/
theorem decSp_reg_operand (s : State) (hr : r.toNat < 8) :
    s.decSp.reg ⟨r.toNat, hr⟩ =
      if r.toNat = 7 then s.regs[7] - 1 else s.regs[r.toNat]'hr := by
  rw [State.reg_decSp]
  simp only [Fin.ext_iff]
  rfl

/-- A push writes the one byte at the lowered SP (R120). -/
theorem pushByte_read (s : State) (v : Byte) (a : Nat) :
    (s.pushByte v).mem.read a = if a = (s.regs[7] - 1).toNat then v else s.mem.read a :=
  Memory.read_write _ _ _ _

/-- CALL's byte is `pc + 2`, reduced (R130; log entry 28). -/
theorem returnAddress_eq_ofNat (s : State) : returnAddress s = BitVec.ofNat 8 (s.pc.toNat + 2) := by
  apply BitVec.eq_of_toNat_eq
  rw [returnAddress, BitVec.toNat_setWidth, BitVec.toNat_add, BitVec.toNat_ofNat,
    show (2 : PcWord).toNat = 2 from rfl]
  omega

/-- Wherever an instruction executes, the byte is `pc + 2` itself (R72, R130). -/
theorem toNat_ofNat_add_two {n : Nat} (hn : n ≤ 253) : (BitVec.ofNat 8 (n + 2)).toNat = n + 2 := by
  rw [BitVec.toNat_ofNat]
  omega

/-- PUSH with a valid operand (R121; D8, D9). -/
theorem exec_push_spec (s : State) (hr : r.toNat < 8) :
    ∃ t : State, exec (.push r) s = .next t ∧
      t.regs = s.regs.set 7 (s.regs[7] - 1) ∧
      (∀ a : Nat, t.mem.read a =
        if a = (s.regs[7] - 1).toNat then
          (if r.toNat = 7 then s.regs[7] - 1 else s.regs[r.toNat]'hr)
        else s.mem.read a) ∧
      t.pc = s.pc + 2 ∧ sameRest s t := by
  refine ⟨_, (Effect.push hr).exec_eq, rfl, fun a => ?_, rfl, rfl, rfl, rfl, rfl⟩
  rw [State.advance_mem, pushByte_read, decSp_reg_operand]

/-- POP with a valid operand (R122; D8, D9). -/
theorem exec_pop_spec (s : State) (hr : r.toNat < 8) :
    ∃ t : State, exec (.pop r) s = .next t ∧
      (∀ q : Fin 8, t.regs[q] =
        if q = 7 then
          (if r.toNat = 7 then s.mem.read (s.regs[7]).toNat else s.regs[7]) + 1
        else if q.val = r.toNat then s.mem.read (s.regs[7]).toNat
        else s.regs[q]) ∧
      t.mem = s.mem ∧ t.pc = s.pc + 2 ∧ sameRest s t := by
  refine ⟨_, (Effect.pop hr).exec_eq, fun q => ?_, rfl, rfl, rfl, rfl, rfl, rfl⟩
  change (((s.setReg ⟨r.toNat, hr⟩ (s.mem.read s.sp.toNat)).incSp).advance 2).reg q = _
  rw [State.advance_reg, State.reg_incSp, State.sp_setReg, State.reg_setReg]
  simp only [Fin.ext_iff]
  rfl

/-- CALL with a valid operand (R130; D8, D9). -/
theorem exec_call_spec (s : State) (hr : r.toNat < 8) :
    ∃ t : State, exec (.call r) s = .next t ∧
      t.regs = s.regs.set 7 (s.regs[7] - 1) ∧
      (∀ a : Nat, t.mem.read a =
        if a = (s.regs[7] - 1).toNat then BitVec.ofNat 8 (s.pc.toNat + 2) else s.mem.read a) ∧
      t.pc.toNat = (if r.toNat = 7 then s.regs[7] - 1 else s.regs[r.toNat]'hr).toNat ∧
      sameRest s t := by
  refine ⟨_, (Effect.call hr).exec_eq, rfl, fun a => ?_, ?_, rfl, rfl, rfl, rfl⟩
  · rw [State.jumpTo_mem, pushByte_read, returnAddress_eq_ofNat]
  · rw [State.jumpTo_pc, zext9_toNat, decSp_reg_operand]

end Sys2Proof.Machine

namespace Sys2Proof

open Machine Statements

/-- Settles O2: LDI's effect; from 253 it leaves pc at 256, where the fetch faults. -/
theorem ldiLoadsImmediate : Obligations.LdiLoadsImmediate := by
  refine ⟨fun _ _ => rfl, fun s r v hr => (Effect.ldi hr).exec_eq,
    fun s r v hr => exec_of_firstReg_ge rfl hr s, fun s r v hs hpc hr => ?_⟩
  have hnext : ((s.setReg ⟨r.toNat, hr⟩ v).advance 3).pc.toNat = 256 := by
    rw [State.advance_pc, State.setReg_pc, toNat_add_length (by omega) le_rfl, hpc]
  exact ⟨_, _, (Effect.ldi hr).exec_eq, hnext,
    step_of_fetchInstr_error hs (fetchInstr_of_gt (by omega)), rfl⟩

/-- Settles O3: PRN's effect and its operand fault. -/
theorem prnEmitsRegister : Obligations.PrnEmitsRegister :=
  ⟨fun _ _ => rfl, fun _ _ hr => (Effect.prn hr).exec_eq,
    fun s _ hr => exec_of_firstReg_ge rfl hr s⟩

/-- Settles O4: MUL's effect, whose product is `mulByte`, and its operand faults. -/
theorem mulMultipliesModulo256 : Obligations.MulMultipliesModulo256 :=
  ⟨fun _ _ => rfl, fun _ _ _ ha hb => ⟨_, mulByte_toNat _ _, (Effect.mul ha hb).exec_eq⟩,
    fun s _ _ ha => exec_of_firstReg_ge rfl ha s,
    fun s _ _ ha hb => exec_of_secondReg_ge rfl ha rfl hb s⟩

/-- Settles O5: CMP's effect, whose flags are `compareFlags`, its operand faults, and that the other
instructions keep the flags. -/
theorem cmpSetsAllThreeFlags : Obligations.CmpSetsAllThreeFlags := by
  refine ⟨fun _ _ => rfl, fun s a b ha hb => ?_, fun s a b ha => exec_of_firstReg_ge rfl ha s,
    fun s a b ha hb => exec_of_secondReg_ge rfl ha rfl hb s, fun i s t h hne => ?_⟩
  · exact ⟨compareFlags (s.reg ⟨a.toNat, ha⟩) (s.reg ⟨b.toNat, hb⟩), decide_eq_true_iff,
      decide_eq_true_iff, decide_eq_true_iff, compareFlags_count _ _, exec_cmp_of_lt ha hb⟩
  · exact exec_keeps_flags h fun ⟨a, b, hi⟩ => hne a b hi

/-- Settles O6: PUSH byte by byte, and its operand fault. -/
theorem pushStoresBelowStackPointer : Obligations.PushStoresBelowStackPointer :=
  ⟨fun _ _ => rfl, fun s _ hr => exec_push_spec s hr, fun s _ hr => exec_of_firstReg_ge rfl hr s⟩

/-- Settles O7: POP register by register, and its operand fault. -/
theorem popLoadsFromStackPointer : Obligations.PopLoadsFromStackPointer :=
  ⟨fun _ _ => rfl, fun s _ hr => exec_pop_spec s hr, fun s _ hr => exec_of_firstReg_ge rfl hr s⟩

/-- Settles O8: CALL byte by byte, and its operand fault. -/
theorem callPushesReturnAddressAndJumps : Obligations.CallPushesReturnAddressAndJumps :=
  ⟨fun _ _ => rfl, fun s _ hr => exec_call_spec s hr, fun s _ hr => exec_of_firstReg_ge rfl hr s,
    fun _ hpc => toNat_ofNat_add_two hpc⟩

/-- Settles O9: RET's effect. -/
theorem retPopsIntoPc : Obligations.RetPopsIntoPc :=
  ⟨fun _ _ => rfl, fun _ => Effect.ret.exec_eq⟩

/-- Settles O10: JMP's effect and its operand fault. -/
theorem jmpLoadsPc : Obligations.JmpLoadsPc :=
  ⟨fun _ _ => rfl, fun _ _ hr => (Effect.jmp hr).exec_eq,
    fun s _ hr => exec_of_firstReg_ge rfl hr s⟩

/-- Settles O11: JEQ's two effects and its operand fault. -/
theorem jeqJumpsWhenEqual : Obligations.JeqJumpsWhenEqual :=
  ⟨fun _ _ => rfl, fun _ _ hr he => (Effect.jeqTaken hr he).exec_eq,
    fun _ _ hr he => (Effect.jeqNotTaken hr he).exec_eq,
    fun s _ hr => exec_of_firstReg_ge rfl hr s⟩

/-- Settles O12: JNE's two effects and its operand fault. -/
theorem jneJumpsWhenNotEqual : Obligations.JneJumpsWhenNotEqual :=
  ⟨fun _ _ => rfl, fun _ _ hr he => (Effect.jneTaken hr he).exec_eq,
    fun _ _ hr he => (Effect.jneNotTaken hr he).exec_eq,
    fun s _ hr => exec_of_firstReg_ge rfl hr s⟩

/-- Settles O18: the two operations of the ALU, and the error for another tag. -/
theorem aluOperationsAndUnsupportedTag : Obligations.AluOperationsAndUnsupportedTag := by
  intro s ra rb code
  exact ⟨⟨_, mulByte_toNat _ _, alu_mul ra rb s⟩,
    ⟨_, decide_eq_true_iff, decide_eq_true_iff, compareFlags_equal_iff, alu_cmp ra rb s⟩, rfl⟩

end Sys2Proof
end

section
/-! PROOFS. Sequences of instructions, and the frames of every instruction (spec/10_state.md R10,
R14, spec/20_memory.md R40, spec/43 and 44). -/

namespace Sys2Proof.Machine

open Statements

variable {i : Instr} {s t : State} {r : Byte}

/-! ### CALL and RET -/

/-- A RET that finds SP and the cell there as CALL left them goes to the instruction after the CALL,
with the old SP (R132; D8). -/
theorem exec_ret_matching {m : State} (hpc : s.pc.toNat ≤ 253) (hr : r.toNat < 8)
    (hcall : exec (.call r) s = .next t) (hsp : m.sp = t.sp)
    (hcell : m.mem.read t.sp.toNat = t.mem.read t.sp.toNat) :
    ∃ u, exec .ret m = .next u ∧ u.pc.toNat = s.pc.toNat + 2 ∧ u.regs = m.regs.set 7 s.sp ∧
      u.flags = m.flags := by
  rw [(Effect.call hr).exec_eq] at hcall
  cases hcall
  rw [State.jumpTo_sp, State.pushByte_sp] at hsp hcell
  have hbyte : m.mem.read m.sp.toNat = returnAddress s := by
    rw [hsp, hcell]
    exact (pushByte_read s _ _).trans (if_pos rfl)
  refine ⟨_, Effect.ret.exec_eq, ?_, ?_, rfl⟩
  · rw [State.jumpTo_pc, zext9_toNat, hbyte, returnAddress_eq_ofNat, toNat_ofNat_add_two hpc]
  · rw [State.jumpTo_regs, State.incSp_regs, hsp, BitVec.sub_add_cancel]
    rfl

/-! ### The jumps -/

/-- JMP, JEQ and JNE write pc and nothing else (R138). -/
theorem exec_jump_eq_setPc (hr : r.toNat < 8) (hi : i = .jmp r ∨ i = .jeq r ∨ i = .jne r)
    (h : exec i s = .next t) : t = s.setPc t.pc := by
  have hwf : i.wellFormed = true := by
    obtain rfl | rfl | rfl := hi <;> exact validRegByte_iff.2 hr
  obtain heff | ⟨e, he, _⟩ := exec_next_cases h
  · obtain rfl | rfl | rfl := hi <;> cases heff <;> rfl
  · exact absurd hwf he.not_wellFormed

/-! ### Frames -/

/-- Fault entry or an effect: one byte of memory at most is written, at the lowered SP, by PUSH or
CALL (R14, R120). -/
theorem exec_mem_cases (h : exec i s = .next t) :
    t.mem = s.mem ∨ (∃ r, i = .push r ∨ i = .call r) ∧
      ∃ v, t.mem = s.mem.write (s.sp - 1).toNat v := by
  obtain heff | ⟨e, _, rfl⟩ := exec_next_cases h
  · exact heff.mem_cases
  · exact .inl rfl

/-- A register that is not the operand of a write keeps its value. -/
theorem reg_setReg_of_ne {q : Reg} (hr : r.toNat < 8) (hq : q.val ≠ r.toNat) (v : Byte) :
    (s.setReg ⟨r.toNat, hr⟩ v).reg q = s.reg q := by
  rw [State.reg_setReg, if_neg fun h => hq (congrArg Fin.val h)]

/-- SP is the register that PUSH, POP, CALL and RET move. -/
theorem reg_setSp_of_ne {q : Reg} (hq : q.val ≠ 7) (v : Byte) : (s.setSp v).reg q = s.reg q := by
  rw [State.reg_setSp, if_neg fun h => hq (congrArg Fin.val h)]

/-- An effect writes the registers of the table's "writes" column only (R10). -/
theorem Effect.reg_eq_of_not_written (h : Effect s i t) {q : Reg} (hq : q.val ∉ regsWritten i) :
    t.reg q = s.reg q := by
  cases h with
  | ldi hr => exact reg_setReg_of_ne hr (by simpa [regsWritten] using hq) _
  | mul ha hb => exact reg_setReg_of_ne ha (by simpa [regsWritten] using hq) _
  | push hr => exact reg_setSp_of_ne (by simpa [regsWritten] using hq) _
  | call hr => exact reg_setSp_of_ne (by simpa [regsWritten] using hq) _
  | ret => exact reg_setSp_of_ne (by simpa [regsWritten] using hq) _
  | @pop r hr =>
    obtain ⟨hqr, hq7⟩ : q.val ≠ r.toNat ∧ q.val ≠ 7 := by simpa [regsWritten] using hq
    exact (reg_setSp_of_ne hq7 _).trans (reg_setReg_of_ne hr hqr _)
  | _ => rfl

/-! ### A register that is not read -/

/-- Writes to one register: the last one stays. -/
theorem setReg_setReg (s : State) (q : Reg) (v w : Byte) :
    (s.setReg q v).setReg q w = s.setReg q w := by
  simp [State.setReg]

/-- Writes to two registers commute. -/
theorem setReg_comm {q p : Reg} (h : q ≠ p) (s : State) (v w : Byte) :
    (s.setReg q v).setReg p w = (s.setReg p w).setReg q v := by
  simp only [State.setReg, Vector.set_comm v w fun hval => h (Fin.ext hval)]

section
variable {q : Reg} (v : Byte)

/-- A write to one register leaves an operand that is another. -/
theorem setReg_reg_operand (hr : r.toNat < 8) (hq : q.val ≠ r.toNat) (s : State) :
    (s.setReg q v).reg ⟨r.toNat, hr⟩ = s.reg ⟨r.toNat, hr⟩ := by
  rw [State.reg_setReg, if_neg fun h => hq (congrArg Fin.val h).symm]

theorem setReg_sp (hq : q.val ≠ 7) (s : State) : (s.setReg q v).sp = s.sp := by
  rw [State.sp_setReg, if_neg fun h => hq (congrArg Fin.val h)]

theorem setReg_decSp (hq : q.val ≠ 7) (s : State) :
    (s.setReg q v).decSp = s.decSp.setReg q v := by
  rw [State.decSp, setReg_sp v hq]
  exact setReg_comm (fun h => hq (congrArg Fin.val h)) s v _

theorem setReg_incSp (hq : q.val ≠ 7) (s : State) :
    (s.setReg q v).incSp = s.incSp.setReg q v := by
  rw [State.incSp, setReg_sp v hq]
  exact setReg_comm (fun h => hq (congrArg Fin.val h)) s v _

theorem setReg_pushByte (hq : q.val ≠ 7) (s : State) (w : Byte) :
    (s.setReg q v).pushByte w = (s.pushByte w).setReg q v := by
  rw [State.pushByte, setReg_decSp v hq, setReg_sp v hq]
  rfl

/-- `u` is `t` but for register `q`: overwritten alike in both, or left in each as it was. -/
def DiffersAsLeft (s : State) (q : Reg) (v : Byte) (t u : State) : Prop :=
  u = t ∨ (u = t.setReg q v ∧ t.reg q = s.reg q)

/-- Setting a register that the table does not list as read changes nothing in the effect (R10). -/
theorem Effect.setReg_of_not_read (h : Effect s i t) (hq : q.val ∉ regsRead i s) :
    ∃ u, Effect (s.setReg q v) i u ∧ DiffersAsLeft s q v t u := by
  cases h with
  | hlt => exact ⟨_, .hlt, .inr ⟨rfl, rfl⟩⟩
  | @ldi r w hr =>
    refine ⟨_, .ldi hr, ?_⟩
    by_cases hqr : q = ⟨r.toNat, hr⟩
    · subst hqr
      exact .inl (by rw [setReg_setReg])
    · refine .inr ⟨?_, reg_setReg_of_ne hr (fun h => hqr (Fin.ext h)) _⟩
      rw [setReg_comm hqr]
      rfl
  | @prn r hr =>
    have hqr : q.val ≠ r.toNat := by simpa [regsRead] using hq
    refine ⟨_, .prn hr, .inr ⟨?_, rfl⟩⟩
    rw [setReg_reg_operand v hr hqr]
    rfl
  | @mul a b ha hb =>
    obtain ⟨hqa, hqb⟩ : q.val ≠ a.toNat ∧ q.val ≠ b.toNat := by simpa [regsRead] using hq
    refine ⟨_, .mul ha hb, .inr ⟨?_, reg_setReg_of_ne ha hqa _⟩⟩
    rw [setReg_reg_operand v ha hqa, setReg_reg_operand v hb hqb,
      setReg_comm fun h => hqa (congrArg Fin.val h)]
    rfl
  | @cmp a b ha hb =>
    obtain ⟨hqa, hqb⟩ : q.val ≠ a.toNat ∧ q.val ≠ b.toNat := by simpa [regsRead] using hq
    refine ⟨_, .cmp ha hb, .inr ⟨?_, rfl⟩⟩
    rw [setReg_reg_operand v ha hqa, setReg_reg_operand v hb hqb]
    rfl
  | @push r hr =>
    obtain ⟨hq7, hqr⟩ : q.val ≠ 7 ∧ q.val ≠ r.toNat := by simpa [regsRead] using hq
    refine ⟨_, .push hr, .inr ⟨?_, reg_setSp_of_ne hq7 _⟩⟩
    rw [setReg_decSp v hq7, setReg_reg_operand v hr hqr, setReg_pushByte v hq7]
    rfl
  | @pop r hr =>
    have hq7 : q.val ≠ 7 := by simpa [regsRead] using hq
    refine ⟨_, .pop hr, ?_⟩
    rw [setReg_sp v hq7, State.setReg_mem]
    by_cases hqr : q = ⟨r.toNat, hr⟩
    · subst hqr
      exact .inl (by rw [setReg_setReg])
    · refine .inr ⟨?_, ?_⟩
      · rw [setReg_comm hqr, setReg_incSp v hq7]
        rfl
      · exact (reg_setSp_of_ne hq7 _).trans (reg_setReg_of_ne hr (fun h => hqr (Fin.ext h)) _)
  | @call r hr =>
    obtain ⟨hq7, hqr⟩ : q.val ≠ 7 ∧ q.val ≠ r.toNat := by simpa [regsRead] using hq
    refine ⟨_, .call hr, .inr ⟨?_, reg_setSp_of_ne hq7 _⟩⟩
    rw [setReg_decSp v hq7, setReg_reg_operand v hr hqr, setReg_pushByte v hq7]
    rfl
  | ret =>
    have hq7 : q.val ≠ 7 := by simpa [regsRead] using hq
    refine ⟨_, .ret, .inr ⟨?_, reg_setSp_of_ne hq7 _⟩⟩
    rw [setReg_sp v hq7, setReg_incSp v hq7]
    rfl
  | @jmp r hr =>
    have hqr : q.val ≠ r.toNat := by simpa [regsRead] using hq
    refine ⟨_, .jmp hr, .inr ⟨?_, rfl⟩⟩
    rw [setReg_reg_operand v hr hqr]
    rfl
  | @jeqTaken r hr he =>
    have hqr : q.val ≠ r.toNat := by simpa [regsRead, he] using hq
    refine ⟨_, .jeqTaken hr he, .inr ⟨?_, rfl⟩⟩
    rw [setReg_reg_operand v hr hqr]
    rfl
  | jeqNotTaken hr he => exact ⟨_, .jeqNotTaken hr he, .inr ⟨rfl, rfl⟩⟩
  | @jneTaken r hr he =>
    have hqr : q.val ≠ r.toNat := by simpa [regsRead, he] using hq
    refine ⟨_, .jneTaken hr he, .inr ⟨?_, rfl⟩⟩
    rw [setReg_reg_operand v hr hqr]
    rfl
  | jneNotTaken hr he => exact ⟨_, .jneNotTaken hr he, .inr ⟨rfl, rfl⟩⟩

/-- The same of every execution: the operand checks read no register. -/
theorem exec_setReg_of_not_read (h : exec i s = .next t) (hq : q.val ∉ regsRead i s) :
    ∃ u, exec i (s.setReg q v) = .next u ∧ DiffersAsLeft s q v t u := by
  obtain heff | ⟨e, he, rfl⟩ := exec_next_cases h
  · obtain ⟨u, hu, hdiff⟩ := heff.setReg_of_not_read v hq
    exact ⟨u, hu.exec_eq, hdiff⟩
  · exact ⟨_, he.exec_eq _, .inr ⟨rfl, rfl⟩⟩

end

/-! ### Register files after a write to SP -/

/-- The registers other than SP are as before. -/
theorem getElem_set_sp_of_ne {q : Fin 8} (hq : q ≠ 7) (regs : Vector Byte 8) (v : Byte) :
    (regs.set 7 v)[q] = regs[q] :=
  Vector.getElem_set_ne _ _ fun h => hq (Fin.ext h.symm)

/-- What is as before along two steps is as before. -/
theorem sameRest_trans {u : State} (h : sameRest s t) (h' : sameRest t u) : sameRest s u := by
  obtain ⟨hf, hs, hr, ho⟩ := h
  obtain ⟨hf', hs', hr', ho'⟩ := h'
  exact ⟨hf'.trans hf, hs'.trans hs, hr'.trans hr, ho'.trans ho⟩

/-- PUSH of a register other than SP (R121). -/
theorem exec_push_gpr (s : State) (hr : r.toNat < 7) :
    ∃ t, exec (.push r) s = .next t ∧ t.regs = s.regs.set 7 (s.regs[7] - 1) ∧
      ∀ a : Nat, t.mem.read a =
        if a = (s.regs[7] - 1).toNat then s.regs[r.toNat] else s.mem.read a := by
  obtain ⟨t, ht, hregs, hmem, _⟩ := exec_push_spec s (r := r) (by omega)
  rw [if_neg hr.ne] at hmem
  exact ⟨t, ht, hregs, hmem⟩

/-- POP to a register other than SP (R122). -/
theorem exec_pop_gpr (s : State) (hr : r.toNat < 7) :
    ∃ t, exec (.pop r) s = .next t ∧ t.mem = s.mem ∧ t.regs[7] = s.regs[7] + 1 ∧
      t.regs[r.toNat] = s.mem.read (s.regs[7]).toNat ∧
      ∀ q : Fin 8, q ≠ 7 → q.val ≠ r.toNat → t.regs[q] = s.regs[q] := by
  obtain ⟨t, ht, hregs, hmem, _⟩ := exec_pop_spec s (r := r) (by omega)
  refine ⟨t, ht, hmem, ?_, ?_, fun q hq7 hqr => ?_⟩
  · have hsp := hregs 7
    rwa [if_pos rfl, if_neg hr.ne] at hsp
  · have hval := hregs ⟨r.toNat, by omega⟩
    rwa [if_neg fun h => hr.ne (congrArg Fin.val h), if_pos rfl] at hval
  · rw [hregs, if_neg hq7, if_neg hqr]

/-- A byte and the byte below it differ. -/
theorem toNat_ne_toNat_sub_one (b : Byte) : b.toNat ≠ (b - 1).toNat := by
  rw [Ne, BitVec.toNat_inj]
  bv_omega

end Sys2Proof.Machine

namespace Sys2Proof

open Machine Statements

/-- Settles O14: the matching RET, and the immediate one as its case. -/
theorem callRetSymmetric : Obligations.CallRetSymmetric := by
  refine ⟨fun s r hpc hr => ?_, fun s t m r hpc hr hcall hsp hcell => ?_⟩
  · obtain ⟨t, hcall, hregs, _, _, hrest⟩ := exec_call_spec s hr
    obtain ⟨u, hret, hupc, huregs, huflags⟩ := exec_ret_matching hpc hr hcall rfl rfl
    refine ⟨t, u, hcall, hret, hupc, ?_, huflags.trans hrest.1⟩
    rw [huregs, hregs, Vector.set_set]
    exact Vector.set_getElem_self _
  · obtain ⟨u, hret, hupc, huregs, huflags⟩ := exec_ret_matching hpc hr hcall hsp hcell
    refine ⟨u, hret, hupc, ?_, huflags, fun q hq => ?_⟩
    · rw [huregs]
      exact Vector.getElem_set_self _
    · rw [huregs]
      exact getElem_set_sp_of_ne hq _ _

/-- Settles O15: POP finds what PUSH stored, and raises SP again. -/
theorem pushPopRestoresRegisters : Obligations.PushPopRestoresRegisters := by
  intro s r hr
  obtain ⟨t, ht, htregs, htmem, htpc, htrest⟩ := exec_push_spec s hr
  obtain ⟨u, hu, huregs, humem, hupc, hurest⟩ := exec_pop_spec t hr
  have hsp : t.regs[7] = s.regs[7] - 1 := by rw [htregs, Vector.getElem_set_self]
  have hcell : t.mem.read (t.regs[7]).toNat =
      if r.toNat = 7 then s.regs[7] - 1 else s.regs[r.toNat] := by
    rw [htmem, hsp, if_pos rfl]
  refine ⟨t, u, ht, hu, regs_ext fun q => ?_, fun a => by rw [humem, htmem], ?_,
    sameRest_trans htrest hurest⟩
  · change u.regs[q] = s.regs[q]
    rw [huregs, hcell, hsp]
    by_cases hq7 : q = 7
    · subst hq7
      rw [if_pos rfl]
      split_ifs <;> exact BitVec.sub_add_cancel _ _
    · rw [if_neg hq7]
      by_cases hqr : q.val = r.toNat
      · have hr7 : r.toNat ≠ 7 := fun h => hq7 (Fin.ext (hqr.trans h))
        rw [if_pos hqr, if_neg hr7]
        simp [← hqr]
      · rw [if_neg hqr, htregs, getElem_set_sp_of_ne hq7]
  · rw [hupc, htpc, BitVec.add_assoc]
    rfl

/-- Settles O16: SP returns the way it came, and the two cells differ. -/
theorem stackIsLastInFirstOut : Obligations.StackIsLastInFirstOut := by
  intro s a b c d ha hb hc hd hcd
  obtain ⟨s1, h1, regs1, mem1⟩ := exec_push_gpr s ha
  obtain ⟨s2, h2, regs2, mem2⟩ := exec_push_gpr s1 hb
  obtain ⟨s3, h3, mem3, sp3, val3, regs3⟩ := exec_pop_gpr s2 hc
  obtain ⟨s4, h4, mem4, sp4, val4, regs4⟩ := exec_pop_gpr s3 hd
  have hsp1 : s1.regs[7] = s.regs[7] - 1 := by rw [regs1, Vector.getElem_set_self]
  have hsp2 : s2.regs[7] = s1.regs[7] - 1 := by rw [regs2, Vector.getElem_set_self]
  have hsp3 : s3.regs[7] = s1.regs[7] := by rw [sp3, hsp2, BitVec.sub_add_cancel]
  have hpushed : ∀ q : Fin 8, q ≠ 7 → s2.regs[q] = s.regs[q] := fun q hq => by
    rw [regs2, getElem_set_sp_of_ne hq, regs1, getElem_set_sp_of_ne hq]
  refine ⟨s1, s2, s3, s4, h1, h2, h3, h4, ?_, ?_, ?_, fun q hqc hqd => ?_⟩
  · have hcd' : c.toNat ≠ d.toNat := fun h => hcd (BitVec.eq_of_toNat_eq h)
    calc s4.regs[c.toNat] = s3.regs[c.toNat] :=
          regs4 ⟨c.toNat, by omega⟩ (fun h => hc.ne (congrArg Fin.val h)) hcd'
      _ = s1.regs[b.toNat] := by rw [val3, mem2, hsp2, if_pos rfl]
      _ = s.regs[b.toNat] := by
          rw [regs1]
          exact getElem_set_sp_of_ne (q := ⟨b.toNat, by omega⟩)
            (fun h => hb.ne (congrArg Fin.val h)) _ _
  · rw [val4, mem3, hsp3, mem2, if_neg (toNat_ne_toNat_sub_one _), hsp1, mem1, if_pos rfl]
  · rw [sp4, hsp3, hsp1, BitVec.sub_add_cancel]
  · by_cases hq7 : q = 7
    · subst hq7
      exact sp4.trans (by rw [hsp3, hsp1, BitVec.sub_add_cancel]; rfl)
    · rw [regs4 q hq7 hqd, regs3 q hq7 hqc, hpushed q hq7]

/-- Settles O17: the stack instructions see the old registers and memory, whatever pc is. -/
theorem jumpsChangeOnlyPc : Obligations.JumpsChangeOnlyPc := by
  intro s t i r hr hi hexec
  obtain ⟨p, rfl⟩ : ∃ p, t = s.setPc p := ⟨_, exec_jump_eq_setPc hr hi hexec⟩
  refine ⟨rfl, fun q hq => ⟨?_, ?_, ?_, ?_⟩⟩
  · obtain ⟨u, hu, hregs, hmem, _⟩ := exec_push_spec (s.setPc p) hq
    exact ⟨u, hu, hregs, hmem⟩
  · obtain ⟨u, hu, hregs, _⟩ := exec_pop_spec (s.setPc p) hq
    refine ⟨u, hu, fun hq7 => ⟨?_, ?_⟩, fun hq7 => ?_⟩
    · exact (hregs ⟨q.toNat, hq⟩).trans
        ((if_neg fun h => hq7 (congrArg Fin.val h)).trans (if_pos rfl))
    · exact (hregs 7).trans ((if_pos rfl).trans (by rw [if_neg hq7]; rfl))
    · exact (hregs 7).trans ((if_pos rfl).trans (by rw [if_pos hq7]; rfl))
  · obtain ⟨u, hu, hregs, hmem, _⟩ := exec_call_spec (s.setPc p) hq
    exact ⟨u, hu, hregs, hmem⟩
  · exact ⟨_, Effect.ret.exec_eq, rfl, zext9_toNat _⟩

/-- Settles O32: the fetch reads memory as PUSH or CALL left it. -/
theorem storesAreSeenByTheNextFetch : Obligations.StoresAreSeenByTheNextFetch := by
  intro s t i r p hr hi hexec hp
  obtain ⟨v, hread, hv⟩ : ∃ v : Byte,
      (∀ a, t.mem.read a = if a = (s.regs[7] - 1).toNat then v else s.mem.read a) ∧
      v = if i = .push r then t.regs[r.toNat] else BitVec.ofNat 8 (s.pc.toNat + 2) := by
    obtain rfl | rfl := hi
    · rw [(Effect.push hr).exec_eq] at hexec
      cases hexec
      exact ⟨_, pushByte_read s _, (if_pos rfl).symm⟩
    · rw [(Effect.call hr).exec_eq] at hexec
      cases hexec
      exact ⟨_, pushByte_read s _, by rw [if_neg (by simp), returnAddress_eq_ofNat]⟩
  have hcell : t.mem.read (s.regs[7] - 1).toNat = v := by rw [hread, if_pos rfl]
  rw [hcell]
  exact ⟨_, (fetch_eq _).trans (if_pos hp), hread _, hread _, hread _, hv⟩

/-- Settles O37: a byte that differs was written by the push. -/
theorem onlyPushAndCallWriteMemory : Obligations.OnlyPushAndCallWriteMemory := by
  intro i s t a h hne
  obtain hmem | ⟨hi, v, hmem⟩ := exec_mem_cases h
  · exact absurd (by rw [hmem]) hne
  · refine ⟨hi, ?_⟩
    by_contra ha
    rw [hmem, Memory.read_write] at hne
    exact hne (if_neg ha)

/-- Settles O38: fault entry writes no register, and an effect those of its row. -/
theorem registerWritesFollowTable : Obligations.RegisterWritesFollowTable := by
  intro i s t q h hq
  obtain heff | ⟨e, _, rfl⟩ := exec_next_cases h
  · exact heff.reg_eq_of_not_written hq
  · rfl

/-- Settles O39: the two end states are the same but for the register, each field read off. -/
theorem registerReadsFollowTable : Obligations.RegisterReadsFollowTable := by
  intro i s t q v hq h
  obtain ⟨u, hu, hdiff⟩ := exec_setReg_of_not_read v h hq
  refine ⟨u, hu, ?_⟩
  obtain rfl | ⟨rfl, hleft⟩ := hdiff
  · exact ⟨rfl, rfl, rfl, rfl, rfl, rfl, fun _ _ => rfl, .inl rfl⟩
  · refine ⟨rfl, rfl, rfl, rfl, rfl, rfl, fun p hp => ?_, .inr ⟨?_, hleft⟩⟩
    · exact (State.reg_setReg t q p v).trans (if_neg hp)
    · exact (State.reg_setReg t q q v).trans (if_pos rfl)

end Sys2Proof
end

section
/-! PROOFS. The memory's representation, reset and the host's moves (spec/50_interfaces.md R150 to
R160, spec/70_reset_and_hazards.md), and the executor (D17). -/

namespace Sys2Proof.Machine

variable {s t : State}

/-! ### The canonical memory list -/

/-- An address below every listed one reads its reset contents (R14). -/
theorem Memory.read_of_forall_lt {m : Memory} {a : Nat} (h : ∀ c ∈ m, a < c.1) :
    m.read a = Config.memReset := by
  induction m with
  | nil => rfl
  | cons c m ih =>
    rw [Memory.read_cons, if_neg (h c (by simp)).ne]
    exact ih fun d hd => h d (by simp [hd])

/-- A canonical list reads the first entry's byte at its address. -/
theorem Memory.read_head (c : Host.Cell) (m : Memory) : Memory.read (c :: m) c.1 = c.2 := by
  rw [Memory.read_cons, if_pos rfl]

/-- Where two canonical lists read the same, neither begins at a lower address. -/
theorem Memory.head_not_lt {c d : Host.Cell} {m n : Memory} (hc : c.2 ≠ Config.memReset)
    (hd : ∀ e ∈ n, d.1 < e.1) (heq : ∀ a, Memory.read (c :: m) a = Memory.read (d :: n) a) :
    ¬ c.1 < d.1 := by
  intro hlt
  have hreset : Memory.read (d :: n) c.1 = Config.memReset :=
    Memory.read_of_forall_lt (by simpa [hlt] using fun a b he => hlt.trans (hd (a, b) he))
  rw [← heq, Memory.read_head] at hreset
  exact hc hreset

/-- The canonical form is unique, by induction on one list: the first entries agree, and then the
rest reads the same. -/
theorem Memory.eq_of_read_eq {m n : Memory} (hm : m.wf) (hn : n.wf)
    (heq : ∀ a, m.read a = n.read a) : m = n := by
  induction m generalizing n with
  | nil =>
    cases n with
    | nil => rfl
    | cons d n =>
      obtain ⟨_, _, hd, _⟩ := Memory.wf_cons.1 hn
      exact absurd ((Memory.read_head d n).symm.trans (heq d.1).symm) hd
  | cons c m ih =>
    obtain ⟨hcm, _, hc, hm⟩ := Memory.wf_cons.1 hm
    cases n with
    | nil => exact absurd ((Memory.read_head c m).symm.trans (heq c.1)) hc
    | cons d n =>
      obtain ⟨hdn, _, hd, hn⟩ := Memory.wf_cons.1 hn
      have haddr : c.1 = d.1 := le_antisymm
        (Nat.not_lt.1 (Memory.head_not_lt hd hcm fun a => (heq a).symm))
        (Nat.not_lt.1 (Memory.head_not_lt hc hdn heq))
      have hbyte : c.2 = d.2 := by
        rw [← Memory.read_head c m, heq, haddr, Memory.read_head]
      have htail : ∀ a, Memory.read m a = Memory.read n a := by
        intro a
        by_cases ha : a = c.1
        · rw [ha, Memory.read_of_forall_lt hcm, haddr, Memory.read_of_forall_lt hdn]
        · have := heq a
          rwa [Memory.read_cons, Memory.read_cons, if_neg ha, if_neg (haddr ▸ ha)] at this
      rw [Prod.ext haddr hbyte, ih hm hn htail]

/-! ### Reset and the host's moves -/

theorem reset_inv : State.reset.Inv := ⟨Memory.wf_nil, by decide, by decide⟩

theorem reset_faultSound : State.reset.FaultSound := faultSound_of_fault_eq_none rfl (by decide)

/-- A load that is accepted writes the image's bytes to memory and nothing else (R151). -/
theorem loadImage_spec {image : List Byte} (h : loadImage image s = some t) :
    t = s.setMem t.mem ∧ (s.mem.wf → t.mem.wf) ∧
      ∀ a, t.mem.read a = if a < image.length then image.getD a 0 else s.mem.read a := by
  obtain ⟨hs, hlen⟩ := loadImage_eq_some h
  obtain ⟨u, hu, hspec⟩ := loadImage_of_fits hs hlen
  rw [hu] at h
  cases h
  exact hspec

/-- A load is accepted exactly before a run and of an image that fits (R151, R160). -/
theorem loadImage_isSome_iff {image : List Byte} :
    (loadImage image s).isSome ↔ s.status = .ready ∧ image.length ≤ 256 := by
  constructor
  · intro h
    obtain ⟨t, ht⟩ := Option.isSome_iff_exists.1 h
    exact loadImage_eq_some ht
  · rintro ⟨hs, hlen⟩
    obtain ⟨t, ht, _⟩ := loadImage_of_fits hs hlen
    rw [ht]
    rfl

/-- A load keeps the invariants: it writes memory only, in the canonical form. -/
theorem loadImage_keeps_invariants {image : List Byte} (h : loadImage image s = some t)
    (hinv : s.Inv) (hsound : s.FaultSound) : t.Inv ∧ t.FaultSound := by
  obtain ⟨hmem, hwf, _⟩ := loadImage_spec h
  obtain ⟨hm, hpc, hflags⟩ := hinv
  rw [hmem]
  exact ⟨⟨hwf hm, hpc, hflags⟩, hsound⟩

/-- A run start keeps them: there is no record before a run. -/
theorem startRun_keeps_invariants (h : startRun s = some t) (hinv : s.Inv)
    (hsound : s.FaultSound) : t.Inv ∧ t.FaultSound := by
  obtain ⟨hs, rfl⟩ := startRun_eq_some.1 h
  exact ⟨hinv, faultSound_of_fault_eq_none (hsound.fault_eq_none (by simp [hs])) (by simp)⟩

/-- A step is taken before the end of a run only (R15). -/
theorem step_next_status (h : step s = .next t) : s.status = .ready ∨ s.status = .running := by
  obtain ⟨hs, _⟩ | ⟨hs, _⟩ | ⟨hs, _⟩ := step_cases h
  · exact .inl hs
  · exact .inr hs
  · exact .inr hs

/-- A host's move is the reset, or one made before the run (R160). -/
theorem hostMove_eq_some {m : HostMove} (h : hostMove m s = some t) :
    t = State.reset ∨ s.status = .ready := by
  cases m with
  | reset => exact .inl (hostReset_eq_some.1 h).2
  | load image => exact .inr (loadImage_eq_some h).1
  | start => exact .inr (startRun_eq_some.1 h).1

/-- The executor starts from before a run only (R152). -/
theorem execute_eq_some {limit : Nat} {p : RunEnd × State} (h : execute limit s = some p) :
    s.status = .ready := by
  obtain ⟨u, hu, _⟩ := Option.map_eq_some_iff.1 h
  exact (startRun_eq_some.1 hu).1

/-! ### The executor -/

/-- The status that a run's end reports: a run stopped by the limit is still running (D17). -/
def RunEnd.status : RunEnd → Status
  | .halted => .halted
  | .faulted => .faulted
  | .stepLimit => .running

theorem RunEnd.status_injective : Function.Injective RunEnd.status := by
  intro e e'
  cases e <;> cases e' <;> simp [RunEnd.status]

theorem executeSteps_of_halted (hs : s.status = .halted) (limit : Nat) :
    executeSteps limit s = (.halted, s) := by
  cases limit <;> simp only [executeSteps, hs]

theorem executeSteps_of_faulted (hs : s.status = .faulted) (limit : Nat) :
    executeSteps limit s = (.faulted, s) := by
  cases limit <;> simp only [executeSteps, hs]

theorem executeSteps_zero (hs : s.status = .running) : executeSteps 0 s = (.stepLimit, s) := by
  simp only [executeSteps, hs]

theorem executeSteps_succ (hs : s.status = .running) (h : step s = .next t) (limit : Nat) :
    executeSteps (limit + 1) s = executeSteps limit t := by
  simp only [executeSteps, hs, h]

/-- No step leads back before the run (R15). -/
theorem step_status_ne_ready (h : step s = .next t) : t.status ≠ .ready := by
  obtain ⟨_, rfl⟩ | ⟨_, e, _, rfl⟩ | ⟨hs, i, _, heff⟩ := step_cases h
  · simp
  · simp
  · rw [heff.status_eq, hs]
    split <;> simp

/-- A started machine's execution is a run of at most the limit's steps, of just so many when the
limit stopped it, and its report is the last state's status; by induction on the limit. -/
theorem executeSteps_spec (limit : Nat) (s : State) (hs : s.status ≠ .ready) :
    ∃ (e : RunEnd) (t : State) (k : Nat), executeSteps limit s = (e, t) ∧ k ≤ limit ∧
      run k s = .next t ∧ (e = .stepLimit → k = limit) ∧ t.status = e.status := by
  induction limit generalizing s with
  | zero =>
    cases hst : s.status with
    | ready => exact absurd hst hs
    | halted => exact ⟨_, s, 0, executeSteps_of_halted hst 0, le_rfl, rfl, fun _ => rfl, hst⟩
    | faulted => exact ⟨_, s, 0, executeSteps_of_faulted hst 0, le_rfl, rfl, fun _ => rfl, hst⟩
    | running => exact ⟨_, s, 0, executeSteps_zero hst, le_rfl, rfl, fun _ => rfl, hst⟩
  | succ limit ih =>
    cases hst : s.status with
    | ready => exact absurd hst hs
    | halted =>
      exact ⟨_, s, 0, executeSteps_of_halted hst _, Nat.zero_le _, rfl, by simp, hst⟩
    | faulted =>
      exact ⟨_, s, 0, executeSteps_of_faulted hst _, Nat.zero_le _, rfl, by simp, hst⟩
    | running =>
      obtain ⟨u, hu⟩ := step_answers hst
      obtain ⟨e, t, k, hexec, hk, hrun, hlimit, ht⟩ := ih u (step_status_ne_ready hu)
      exact ⟨e, t, k + 1, (executeSteps_succ hst hu limit).trans hexec, by omega,
        (run_succ_of_next hu k).trans hrun, fun he => by rw [hlimit he], ht⟩

end Sys2Proof.Machine

namespace Sys2Proof

open Machine

/-- Settles O42: the lists agree entry by entry. -/
theorem canonicalMemoryIsUnique : Obligations.CanonicalMemoryIsUnique :=
  fun _ _ hm hn heq => Memory.eq_of_read_eq hm hn heq

/-- Settles O43: the reset state's fields as they are written. -/
theorem resetLeavesStatedValues : Obligations.ResetLeavesStatedValues :=
  ⟨Memory.read_nil, rfl, rfl, rfl, rfl, by decide⟩

/-- Settles O44: the same for registers 0 to 6 and the flags. -/
theorem resetLeavesDecidedValues : Obligations.ResetLeavesDecidedValues :=
  ⟨by decide, rfl⟩

/-- Settles O45: empty memory, pc 0, clear flags and no record. -/
theorem resetMeetsInvariants : Obligations.ResetMeetsInvariants :=
  ⟨reset_inv, reset_faultSound⟩

/-- Settles O46: before a run the step is the run start. -/
theorem runStartSetsRunning : Obligations.RunStartSetsRunning := fun _ hs => step_of_ready hs

/-- Settles O47: the load after reset, where every other byte is 0; a longer image is turned away. -/
theorem programLoadPadsWithZeroes : Obligations.ProgramLoadPadsWithZeroes := by
  refine ⟨fun image hlen => ?_, fun image s hlen => ?_⟩
  · obtain ⟨t, ht, hmem, hwf, hread⟩ := loadImage_of_fits (s := State.reset) rfl hlen
    refine ⟨t, ht, fun a => ?_, hwf Memory.wf_nil, hmem, step_of_ready (by rw [hmem]; rfl)⟩
    rw [hread]
    split
    · rfl
    · rename_i ha
      exact (List.getD_eq_default _ _ (Nat.not_lt.1 ha)).symm
  · rw [← Option.not_isSome_iff_eq_none, loadImage_isSome_iff]
    exact fun h => absurd h.2 (Nat.not_le.2 hlen)

/-- Settles O49: the run start, then the executor's steps. -/
theorem stepLimitIsNoEndOfRun : Obligations.StepLimitIsNoEndOfRun := by
  refine fun limit s => ⟨fun hs => ?_, fun hs => ?_⟩
  · cases h : execute limit s with
    | none => rfl
    | some p => exact absurd (execute_eq_some h) hs
  · obtain ⟨e, t, k, hexec, hk, hrun, hlimit, ht⟩ :=
      executeSteps_spec limit s.setRunning (by simp)
    have hreport : ∀ e', e = e' ↔ t.status = e'.status := fun e' => by
      rw [ht, RunEnd.status_injective.eq_iff]
    refine ⟨e, t, k, ?_, hk, hrun, hlimit, hreport .halted, hreport .faulted, hreport .stepLimit⟩
    rw [execute, startRun_eq_some.2 ⟨hs, rfl⟩, Option.map_some, hexec]

/-- Settles O50: each move by the status it needs. -/
theorem hostMovesKeepToTheirMoments : Obligations.HostMovesKeepToTheirMoments := by
  refine fun s => ⟨?_, ?_, fun image => ⟨loadImage_isSome_iff, fun t h => ?_⟩⟩
  · cases hs : s.status <;> simp [hostMove, hostReset, hs]
  · cases hs : s.status <;> simp [hostMove, startRun, hs, State.setRunning]
  · obtain ⟨hmem, _, hread⟩ := loadImage_spec h
    exact ⟨hmem, hread⟩

/-- Settles O51: what leads to a next state begins before or in a run, or is the reset. -/
theorem endedRunIsLeftByResetOnly : Obligations.EndedRunIsLeftByResetOnly := by
  intro s t h
  have hfrom : t = State.reset ∨ s.status = .ready ∨ s.status = .running := by
    obtain h | ⟨m, h⟩ | ⟨limit, e, h⟩ := h
    · exact .inr (step_next_status h)
    · exact (hostMove_eq_some h).imp_right .inl
    · exact .inr (.inl (execute_eq_some h))
  obtain rfl | hs := hfrom
  · exact ⟨fun _ => rfl, fun hrun => by cases hrun⟩
  · refine ⟨fun hend => ?_, fun _ => hs⟩
    obtain hs | hs := hs <;> simp [hs] at hend

/-- Settles O52: the reset state meets the invariants, the load and the start keep them. -/
theorem hostMovesKeepInvariants : Obligations.HostMovesKeepInvariants := by
  intro m s t hinv hsound h
  cases m with
  | reset =>
    obtain ⟨_, rfl⟩ := hostReset_eq_some.1 h
    exact ⟨reset_inv, reset_faultSound⟩
  | load image => exact loadImage_keeps_invariants h hinv hsound
  | start => exact startRun_keeps_invariants h hinv hsound

end Sys2Proof
end
